-- ==== Sys2Proof/Word.lean ====
section
/-! DEFINITION. The widths of the machine's values (00_scope.md R5): bytes, 16-bit words, the 4-bit and 12-bit
fields of an instruction word. -/
namespace Sys2Proof

/-- `REG_BITS` (00_scope.md R5): width of each V register. -/
abbrev regBits : Nat := 8

/-- `TIMER_BITS` (00_scope.md R5): width of DT and ST. -/
abbrev timerBits : Nat := 8

/-- `I_BITS` (00_scope.md R5): width of I. -/
abbrev indexBits : Nat := 16

/-- `PC_BITS` (00_scope.md R5): width of the program counter. -/
abbrev pcBits : Nat := 16

/-- A register, a memory cell, a timer: `regBits` = `timerBits` = 8 bits. The width stands as a numeral, so that
arithmetic on it reduces; Tests/Slice0.lean checks it against the names. -/
abbrev Byte := BitVec 8

/-- The program counter, I, a stack entry, an instruction word: `pcBits` = `indexBits` = 16 bits. -/
abbrev Word := BitVec 16

/-- A register index or key index or sprite height: 4 bits (30_encoding.md R91 `x`, `y`, `n`). -/
abbrev Nibble := BitVec 4

/-- A 12-bit address immediate (30_encoding.md R91 `nnn`). -/
abbrev Addr := BitVec 12

end Sys2Proof
end

