-- ==== Sys2Proof/Syntax.lean ====
section
/-! DEFINITION. The instructions (30_encoding.md R94, R97): one constructor per mnemonic of spec/opcode_table.json,
its arguments the fields of the pattern (30_encoding.md R91). -/
namespace Sys2Proof

/-- The 34 instructions of 30_encoding.md R94 and the no-op of R97. `x`, `y` select registers, `nn` is an 8-bit and
`nnn` a 12-bit unsigned immediate, `n` a sprite height (30_encoding.md R93). -/
inductive Instr where
  /-- `00E0` clear the framebuffer. -/
  | cls
  /-- `00EE` return. -/
  | ret
  /-- `1nnn` jump. -/
  | jp (nnn : Addr)
  /-- `2nnn` call. -/
  | call (nnn : Addr)
  /-- `3xnn` skip if Vx equals nn. -/
  | seImm (x : Nibble) (nn : Byte)
  /-- `4xnn` skip if Vx differs from nn. -/
  | sneImm (x : Nibble) (nn : Byte)
  /-- `5xy0` skip if Vx equals Vy. -/
  | seReg (x y : Nibble)
  /-- `6xnn` load immediate. -/
  | ldImm (x : Nibble) (nn : Byte)
  /-- `7xnn` add immediate, no flag. -/
  | addImm (x : Nibble) (nn : Byte)
  /-- `8xy0` assign. -/
  | ldReg (x y : Nibble)
  /-- `8xy1` bitwise OR. -/
  | orReg (x y : Nibble)
  /-- `8xy2` bitwise AND. -/
  | andReg (x y : Nibble)
  /-- `8xy3` bitwise XOR. -/
  | xorReg (x y : Nibble)
  /-- `8xy4` add with carry out. -/
  | addReg (x y : Nibble)
  /-- `8xy5` subtract with not-borrow out. -/
  | subReg (x y : Nibble)
  /-- `8xy6` shift right; `y` is read only when SHIFT_USES_VY. -/
  | shr (x y : Nibble)
  /-- `8xy7` reverse subtract with not-borrow out. -/
  | subn (x y : Nibble)
  /-- `8xyE` shift left; `y` is read only when SHIFT_USES_VY. -/
  | shl (x y : Nibble)
  /-- `9xy0` skip if Vx differs from Vy. -/
  | sneReg (x y : Nibble)
  /-- `Annn` load I. -/
  | ldI (nnn : Addr)
  /-- `Bnnn` load I with nnn + V0. -/
  | ldIV0 (nnn : Addr)
  /-- `Cxnn` masked random byte. -/
  | rnd (x : Nibble) (nn : Byte)
  /-- `Dxyn` draw a sprite of n rows. -/
  | drw (x y n : Nibble)
  /-- `Ex9E` skip if key Vx is pressed. -/
  | skp (x : Nibble)
  /-- `ExA1` skip if key Vx is not pressed. -/
  | sknp (x : Nibble)
  /-- `Fx07` read the delay timer. -/
  | ldVxDT (x : Nibble)
  /-- `Fx0A` wait for a key press into Vx. -/
  | ldVxK (x : Nibble)
  /-- `Fx15` set the delay timer. -/
  | ldDTVx (x : Nibble)
  /-- `Fx18` set the sound timer. -/
  | ldSTVx (x : Nibble)
  /-- `Fx1E` add Vx to I. -/
  | addI (x : Nibble)
  /-- `Fx29` point I at a font glyph. -/
  | ldF (x : Nibble)
  /-- `Fx33` store binary-coded decimal. -/
  | ldB (x : Nibble)
  /-- `Fx55` store V0..Vx. -/
  | storeRegs (x : Nibble)
  /-- `Fx65` load V0..Vx. -/
  | loadRegs (x : Nibble)
  /-- Any word `w` no row of 30_encoding.md R94 lists: the no-op (R97). It carries its word, so that no bit is lost. -/
  | nop (w : Word)
deriving DecidableEq, Repr

end Sys2Proof
end

