-- ==== Sys2Proof/WellFormed.lean ====
section
/-! DEFINITION. The opcode map as masks and matches (30_encoding.md R94), and which terms of `Instr` stand for a word:
every one but a no-op that carries a listed word. -/
namespace Sys2Proof

/-- One row of the opcode map: a word `op` selects it iff `(op and mask) == pattern` (30_encoding.md R94). -/
structure OpcodeRow where
  mask : Word
  pattern : Word
deriving DecidableEq, Repr

/-- `(op and mask) == match` (30_encoding.md R94). -/
def OpcodeRow.selects (r : OpcodeRow) (op : Word) : Bool := op &&& r.mask == r.pattern

/-- The rows of 30_encoding.md R94 under top nibbles 0 to 7. -/
def rowsLow : List OpcodeRow :=
  [⟨0xFFFF#16, 0x00E0#16⟩, ⟨0xFFFF#16, 0x00EE#16⟩, ⟨0xF000#16, 0x1000#16⟩, ⟨0xF000#16, 0x2000#16⟩, ⟨0xF000#16, 0x3000#16⟩,
   ⟨0xF000#16, 0x4000#16⟩, ⟨0xF00F#16, 0x5000#16⟩, ⟨0xF000#16, 0x6000#16⟩, ⟨0xF000#16, 0x7000#16⟩]

/-- The rows of 30_encoding.md R94 under top nibble 8. -/
def rowsAlu : List OpcodeRow :=
  [⟨0xF00F#16, 0x8000#16⟩, ⟨0xF00F#16, 0x8001#16⟩, ⟨0xF00F#16, 0x8002#16⟩, ⟨0xF00F#16, 0x8003#16⟩, ⟨0xF00F#16, 0x8004#16⟩,
   ⟨0xF00F#16, 0x8005#16⟩, ⟨0xF00F#16, 0x8006#16⟩, ⟨0xF00F#16, 0x8007#16⟩, ⟨0xF00F#16, 0x800E#16⟩]

/-- The rows of 30_encoding.md R94 under top nibbles 9 to D. -/
def rowsMid : List OpcodeRow :=
  [⟨0xF00F#16, 0x9000#16⟩, ⟨0xF000#16, 0xA000#16⟩, ⟨0xF000#16, 0xB000#16⟩, ⟨0xF000#16, 0xC000#16⟩, ⟨0xF000#16, 0xD000#16⟩]

/-- The rows of 30_encoding.md R94 under top nibbles E and F. -/
def rowsHigh : List OpcodeRow :=
  [⟨0xF0FF#16, 0xE09E#16⟩, ⟨0xF0FF#16, 0xE0A1#16⟩, ⟨0xF0FF#16, 0xF007#16⟩, ⟨0xF0FF#16, 0xF00A#16⟩, ⟨0xF0FF#16, 0xF015#16⟩,
   ⟨0xF0FF#16, 0xF018#16⟩, ⟨0xF0FF#16, 0xF01E#16⟩, ⟨0xF0FF#16, 0xF029#16⟩, ⟨0xF0FF#16, 0xF033#16⟩, ⟨0xF0FF#16, 0xF055#16⟩,
   ⟨0xF0FF#16, 0xF065#16⟩]

/-- The opcode map: the 34 rows of 30_encoding.md R94 in the table's order. -/
def opcodeRows : List OpcodeRow := rowsLow ++ rowsAlu ++ rowsMid ++ rowsHigh

/-- Whether some row of the opcode map selects the word. -/
def isListed (op : Word) : Bool := opcodeRows.any fun r => r.selects op

/-- The row of the opcode map an instruction stands in; none for the no-op (30_encoding.md R94, R97). -/
def Instr.row : Instr → Option OpcodeRow
  | .cls => some ⟨0xFFFF#16, 0x00E0#16⟩
  | .ret => some ⟨0xFFFF#16, 0x00EE#16⟩
  | .jp _ => some ⟨0xF000#16, 0x1000#16⟩
  | .call _ => some ⟨0xF000#16, 0x2000#16⟩
  | .seImm _ _ => some ⟨0xF000#16, 0x3000#16⟩
  | .sneImm _ _ => some ⟨0xF000#16, 0x4000#16⟩
  | .seReg _ _ => some ⟨0xF00F#16, 0x5000#16⟩
  | .ldImm _ _ => some ⟨0xF000#16, 0x6000#16⟩
  | .addImm _ _ => some ⟨0xF000#16, 0x7000#16⟩
  | .ldReg _ _ => some ⟨0xF00F#16, 0x8000#16⟩
  | .orReg _ _ => some ⟨0xF00F#16, 0x8001#16⟩
  | .andReg _ _ => some ⟨0xF00F#16, 0x8002#16⟩
  | .xorReg _ _ => some ⟨0xF00F#16, 0x8003#16⟩
  | .addReg _ _ => some ⟨0xF00F#16, 0x8004#16⟩
  | .subReg _ _ => some ⟨0xF00F#16, 0x8005#16⟩
  | .shr _ _ => some ⟨0xF00F#16, 0x8006#16⟩
  | .subn _ _ => some ⟨0xF00F#16, 0x8007#16⟩
  | .shl _ _ => some ⟨0xF00F#16, 0x800E#16⟩
  | .sneReg _ _ => some ⟨0xF00F#16, 0x9000#16⟩
  | .ldI _ => some ⟨0xF000#16, 0xA000#16⟩
  | .ldIV0 _ => some ⟨0xF000#16, 0xB000#16⟩
  | .rnd _ _ => some ⟨0xF000#16, 0xC000#16⟩
  | .drw _ _ _ => some ⟨0xF000#16, 0xD000#16⟩
  | .skp _ => some ⟨0xF0FF#16, 0xE09E#16⟩
  | .sknp _ => some ⟨0xF0FF#16, 0xE0A1#16⟩
  | .ldVxDT _ => some ⟨0xF0FF#16, 0xF007#16⟩
  | .ldVxK _ => some ⟨0xF0FF#16, 0xF00A#16⟩
  | .ldDTVx _ => some ⟨0xF0FF#16, 0xF015#16⟩
  | .ldSTVx _ => some ⟨0xF0FF#16, 0xF018#16⟩
  | .addI _ => some ⟨0xF0FF#16, 0xF01E#16⟩
  | .ldF _ => some ⟨0xF0FF#16, 0xF029#16⟩
  | .ldB _ => some ⟨0xF0FF#16, 0xF033#16⟩
  | .storeRegs _ => some ⟨0xF0FF#16, 0xF055#16⟩
  | .loadRegs _ => some ⟨0xF0FF#16, 0xF065#16⟩
  | .nop _ => none

/-- A term of `Instr` stands for a word iff it is no no-op that carries a listed word: the no-op words are exactly
those no row selects (30_encoding.md R97). Register and immediate fields are of the field's own width, so they need
no check. -/
def Instr.wellFormed : Instr → Bool
  | .nop w => !isListed w
  | .cls => true
  | .ret => true
  | .jp _ => true
  | .call _ => true
  | .seImm _ _ => true
  | .sneImm _ _ => true
  | .seReg _ _ => true
  | .ldImm _ _ => true
  | .addImm _ _ => true
  | .ldReg _ _ => true
  | .orReg _ _ => true
  | .andReg _ _ => true
  | .xorReg _ _ => true
  | .addReg _ _ => true
  | .subReg _ _ => true
  | .shr _ _ => true
  | .subn _ _ => true
  | .shl _ _ => true
  | .sneReg _ _ => true
  | .ldI _ => true
  | .ldIV0 _ => true
  | .rnd _ _ => true
  | .drw _ _ _ => true
  | .skp _ => true
  | .sknp _ => true
  | .ldVxDT _ => true
  | .ldVxK _ => true
  | .ldDTVx _ => true
  | .ldSTVx _ => true
  | .addI _ => true
  | .ldF _ => true
  | .ldB _ => true
  | .storeRegs _ => true
  | .loadRegs _ => true

end Sys2Proof
end

