-- ==== Sys2Proof/Decode.lean ====
section
/-! DEFINITION. Decoding a word (30_encoding.md R90, R91, R95, R97), decoding bytes as they stand in memory
(20_memory.md R62), and the encoder written from the same patterns (30_encoding.md R92, R94). -/
namespace Sys2Proof

/-- `top = op[15:12]` (30_encoding.md R91). -/
def fieldTop (op : Word) : Nibble := op.extractLsb' 12 4

/-- `x = op[11:8]` (30_encoding.md R91). -/
def fieldX (op : Word) : Nibble := op.extractLsb' 8 4

/-- `y = op[7:4]` (30_encoding.md R91). -/
def fieldY (op : Word) : Nibble := op.extractLsb' 4 4

/-- `n = op[3:0]` (30_encoding.md R91). -/
def fieldN (op : Word) : Nibble := op.extractLsb' 0 4

/-- `nn = op[7:0]` (30_encoding.md R91). -/
def fieldNN (op : Word) : Byte := op.extractLsb' 0 8

/-- `nnn = op[11:0]` (30_encoding.md R91). -/
def fieldNNN (op : Word) : Addr := op.extractLsb' 0 12

/-- Top nibble 0: the whole word must be 0x00E0 or 0x00EE (30_encoding.md R95). -/
def decodeTop0 (op : Word) : Instr :=
  if op = 0x00E0#16 then .cls
  else if op = 0x00EE#16 then .ret
  else .nop op

/-- Top nibble 8: `n` is one of 0 to 7 and E (30_encoding.md R95). -/
def decodeTop8 (op : Word) : Instr :=
  if fieldN op = 0x0#4 then .ldReg (fieldX op) (fieldY op)
  else if fieldN op = 0x1#4 then .orReg (fieldX op) (fieldY op)
  else if fieldN op = 0x2#4 then .andReg (fieldX op) (fieldY op)
  else if fieldN op = 0x3#4 then .xorReg (fieldX op) (fieldY op)
  else if fieldN op = 0x4#4 then .addReg (fieldX op) (fieldY op)
  else if fieldN op = 0x5#4 then .subReg (fieldX op) (fieldY op)
  else if fieldN op = 0x6#4 then .shr (fieldX op) (fieldY op)
  else if fieldN op = 0x7#4 then .subn (fieldX op) (fieldY op)
  else if fieldN op = 0xE#4 then .shl (fieldX op) (fieldY op)
  else .nop op

/-- Top nibble E: `nn` is 0x9E or 0xA1 (30_encoding.md R95). -/
def decodeTopE (op : Word) : Instr :=
  if fieldNN op = 0x9E#8 then .skp (fieldX op)
  else if fieldNN op = 0xA1#8 then .sknp (fieldX op)
  else .nop op

/-- Top nibble F: `nn` is one of nine values (30_encoding.md R95). -/
def decodeTopF (op : Word) : Instr :=
  if fieldNN op = 0x07#8 then .ldVxDT (fieldX op)
  else if fieldNN op = 0x0A#8 then .ldVxK (fieldX op)
  else if fieldNN op = 0x15#8 then .ldDTVx (fieldX op)
  else if fieldNN op = 0x18#8 then .ldSTVx (fieldX op)
  else if fieldNN op = 0x1E#8 then .addI (fieldX op)
  else if fieldNN op = 0x29#8 then .ldF (fieldX op)
  else if fieldNN op = 0x33#8 then .ldB (fieldX op)
  else if fieldNN op = 0x55#8 then .storeRegs (fieldX op)
  else if fieldNN op = 0x65#8 then .loadRegs (fieldX op)
  else .nop op

/-- Decoding a word, total (30_encoding.md R95, R96): by the top nibble, then by the discriminator of the top nibble;
any other word is the no-op (R97). -/
def decode (op : Word) : Instr :=
  if fieldTop op = 0x0#4 then decodeTop0 op
  else if fieldTop op = 0x1#4 then .jp (fieldNNN op)
  else if fieldTop op = 0x2#4 then .call (fieldNNN op)
  else if fieldTop op = 0x3#4 then .seImm (fieldX op) (fieldNN op)
  else if fieldTop op = 0x4#4 then .sneImm (fieldX op) (fieldNN op)
  else if fieldTop op = 0x5#4 then (if fieldN op = 0x0#4 then .seReg (fieldX op) (fieldY op) else .nop op)
  else if fieldTop op = 0x6#4 then .ldImm (fieldX op) (fieldNN op)
  else if fieldTop op = 0x7#4 then .addImm (fieldX op) (fieldNN op)
  else if fieldTop op = 0x8#4 then decodeTop8 op
  else if fieldTop op = 0x9#4 then (if fieldN op = 0x0#4 then .sneReg (fieldX op) (fieldY op) else .nop op)
  else if fieldTop op = 0xA#4 then .ldI (fieldNNN op)
  else if fieldTop op = 0xB#4 then .ldIV0 (fieldNNN op)
  else if fieldTop op = 0xC#4 then .rnd (fieldX op) (fieldNN op)
  else if fieldTop op = 0xD#4 then .drw (fieldX op) (fieldY op) (fieldN op)
  else if fieldTop op = 0xE#4 then decodeTopE op
  else decodeTopF op

/-- The word of two bytes in memory order: big-endian, the byte at the lower address high (20_memory.md R62,
30_encoding.md R90). -/
def wordOfBytes (hi lo : Byte) : Word := hi ++ lo

/-- Why a list of bytes holds no instruction. -/
inductive DecodeError where
  /-- Fewer than the two bytes of a word are there (30_encoding.md R90). Raised by `decodeBytes` alone. -/
  | truncated
deriving DecidableEq, Repr

/-- The first instruction of a list of bytes in memory order, with the bytes after it. It rejects only a list of
fewer than two bytes: every word decodes (30_encoding.md R96). -/
def decodeBytes : List Byte → Except DecodeError (Instr × List Byte)
  | hi :: lo :: rest => .ok (decode (wordOfBytes hi lo), rest)
  | _ => .error .truncated

/-- The word of an instruction, by substituting the operands into the pattern (30_encoding.md R92, R94, R100). -/
def encode : Instr → Word
  | .cls => 0x00E0#16
  | .ret => 0x00EE#16
  | .jp nnn => 0x1#4 ++ nnn
  | .call nnn => 0x2#4 ++ nnn
  | .seImm x nn => 0x3#4 ++ x ++ nn
  | .sneImm x nn => 0x4#4 ++ x ++ nn
  | .seReg x y => 0x5#4 ++ x ++ y ++ 0x0#4
  | .ldImm x nn => 0x6#4 ++ x ++ nn
  | .addImm x nn => 0x7#4 ++ x ++ nn
  | .ldReg x y => 0x8#4 ++ x ++ y ++ 0x0#4
  | .orReg x y => 0x8#4 ++ x ++ y ++ 0x1#4
  | .andReg x y => 0x8#4 ++ x ++ y ++ 0x2#4
  | .xorReg x y => 0x8#4 ++ x ++ y ++ 0x3#4
  | .addReg x y => 0x8#4 ++ x ++ y ++ 0x4#4
  | .subReg x y => 0x8#4 ++ x ++ y ++ 0x5#4
  | .shr x y => 0x8#4 ++ x ++ y ++ 0x6#4
  | .subn x y => 0x8#4 ++ x ++ y ++ 0x7#4
  | .shl x y => 0x8#4 ++ x ++ y ++ 0xE#4
  | .sneReg x y => 0x9#4 ++ x ++ y ++ 0x0#4
  | .ldI nnn => 0xA#4 ++ nnn
  | .ldIV0 nnn => 0xB#4 ++ nnn
  | .rnd x nn => 0xC#4 ++ x ++ nn
  | .drw x y n => 0xD#4 ++ x ++ y ++ n
  | .skp x => 0xE#4 ++ x ++ 0x9E#8
  | .sknp x => 0xE#4 ++ x ++ 0xA1#8
  | .ldVxDT x => 0xF#4 ++ x ++ 0x07#8
  | .ldVxK x => 0xF#4 ++ x ++ 0x0A#8
  | .ldDTVx x => 0xF#4 ++ x ++ 0x15#8
  | .ldSTVx x => 0xF#4 ++ x ++ 0x18#8
  | .addI x => 0xF#4 ++ x ++ 0x1E#8
  | .ldF x => 0xF#4 ++ x ++ 0x29#8
  | .ldB x => 0xF#4 ++ x ++ 0x33#8
  | .storeRegs x => 0xF#4 ++ x ++ 0x55#8
  | .loadRegs x => 0xF#4 ++ x ++ 0x65#8
  | .nop w => w

/-- The two bytes of a word in memory order (20_memory.md R62). -/
def bytesOfWord (op : Word) : List Byte := [op.extractLsb' 8 8, op.extractLsb' 0 8]

/-- The word of a table row's bits: `w` numbered as spec/opcode_table.json numbers them (bit 0 the least significant),
every bit from `nbits` on 0. -/
def tableWord (nbits w : Nat) : Word := BitVec.ofNat 16 (w % 2 ^ nbits)

/-- What the decoder reads from an instruction whose bits are `w`: its word laid out as memory holds it, then
`decodeBytes`. -/
def decodeTableWord (nbits w : Nat) : Option Instr :=
  match decodeBytes (bytesOfWord (tableWord nbits w)) with
  | .ok (i, _) => some i
  | .error _ => none

end Sys2Proof
end

