-- ==== Sys2Proof/Config.lean ====
section
/-! DEFINITION. The implementation parameters of 00_scope.md R5: the fixed ones as constants (the widths stand in
Word.lean), the OPEN ones as the fields of `Config`, and the free random byte. The default values of the open ones
stand in Machine/Params.lean. -/
namespace Sys2Proof

/-- `MEM_SIZE` (00_scope.md R5): bytes of memory. -/
abbrev memSize : Nat := 4096

/-- `PROG_BASE` (00_scope.md R5): the load address and the reset value of pc. -/
abbrev progBase : Nat := 0x200

/-- `PROG_MAX` (00_scope.md R5): the most bytes a LOAD copies. -/
abbrev progMax : Nat := memSize - progBase

/-- `COLS` (00_scope.md R5): framebuffer columns. -/
abbrev cols : Nat := 64

/-- `FONT_BASE` (00_scope.md R5): address of the first font byte. -/
abbrev fontBase : Nat := 0

/-- `GLYPH_BYTES` (00_scope.md R5): bytes per glyph, and the multiplier of `Fx29`. -/
abbrev glyphBytes : Nat := 5

/-- The glyphs of the font, one for each hexadecimal digit (00_scope.md R5 FONT_LEN). -/
abbrev glyphs : Nat := 16

/-- `FONT_LEN` (00_scope.md R5): 16 glyphs of 5 bytes, 80 in all. -/
abbrev fontLen : Nat := glyphBytes * glyphs

/-- `NREGS` (00_scope.md R5): general registers V0..VF. -/
abbrev nregs : Nat := 16

/-- `FLAG_REG` (00_scope.md R5): index of the flag register VF. -/
abbrev flagReg : Nibble := 0xF#4

/-- `NKEYS` (00_scope.md R5): keyboard slots 0x0..0xF. -/
abbrev nkeys : Nat := 16

/-- `CYCLES_PER_TICK` (00_scope.md R5), reference only: the host's ratio of cycles to ticks. No rule of the spec
depends on it, so no definition reads it (log 16). -/
abbrev cyclesPerTick : Nat := 10

/-- `TICK_HZ` (00_scope.md R5), reference only: the host's tick rate. No rule of the spec depends on it, so no
definition reads it (log 16). -/
abbrev tickHz : Nat := 60

/-- The two display sizes of 10_state.md R40: 64 x 32, and the 64 x 64 variant. -/
inductive Screen where
  | rows32
  | rows64
deriving DecidableEq, Repr

/-- `ROWS` (00_scope.md R5, 92_eei_decisions.md D20). -/
def Screen.rows : Screen → Nat
  | .rows32 => 32
  | .rows64 => 64

/-- The parameters the spec leaves OPEN (00_scope.md R5, 92_eei_decisions.md D4, D8, D17, D19, D20), chosen when
an engine is built and changed by nothing afterwards (10_state.md R36). -/
structure Config where
  /-- `ROWS`, as one of the two sizes. -/
  screen : Screen
  /-- `STACK_DEPTH`, the most saved pcs the stack holds. -/
  stackDepth : Nat
  /-- `SHIFT_USES_VY`: whether `8xy6` and `8xyE` shift Vy instead of Vx. -/
  shiftUsesVy : Bool
  /-- `LOAD_RESETS_CPU`: whether LOAD resets V, I, the stack, DT and ST. -/
  loadResetsCpu : Bool
  /-- `FONT`: 16 glyphs of 5 bytes, `FONT[5*d + r]` being row `r` of glyph `d`. -/
  font : Vector (Vector Byte glyphBytes) glyphs
deriving DecidableEq, Repr

/-- FREE VALUE (log 3): the `k`-th byte `random_byte()` returns to a `Cxnn`. The spec gives no generator and no law
(40_engine_operations.md R115, 45_io_timers.md R210), so it has no body and nothing can be proved of its value. -/
opaque Config.randomByte : Nat → Byte

end Sys2Proof
end

