-- ==== Sys2Proof/Machine/Params.lean ====
section
/-! DEFINITION. The default values of the parameters the spec leaves open (00_scope.md R5), and the contents of
memory after reset. -/
namespace Sys2Proof.Machine

/-- The default `FONT` of 10_state.md R39, one glyph per row. PRESUMED (log 6): the spec itself marks these bytes
[from general knowledge, not in source]. -/
def defaultFont : Vector (Vector Byte glyphBytes) glyphs :=
  #v[#v[0xF0, 0x90, 0x90, 0x90, 0xF0],
     #v[0x20, 0x60, 0x20, 0x20, 0x70],
     #v[0xF0, 0x10, 0xF0, 0x80, 0xF0],
     #v[0xF0, 0x10, 0xF0, 0x10, 0xF0],
     #v[0x90, 0x90, 0xF0, 0x10, 0x10],
     #v[0xF0, 0x80, 0xF0, 0x10, 0xF0],
     #v[0xF0, 0x80, 0xF0, 0x90, 0xF0],
     #v[0xF0, 0x10, 0x20, 0x40, 0x40],
     #v[0xF0, 0x90, 0xF0, 0x90, 0xF0],
     #v[0xF0, 0x90, 0xF0, 0x10, 0xF0],
     #v[0xF0, 0x90, 0xF0, 0x90, 0x90],
     #v[0xE0, 0x90, 0xE0, 0x90, 0xE0],
     #v[0xF0, 0x80, 0x80, 0x80, 0xF0],
     #v[0xE0, 0x90, 0x90, 0x90, 0xE0],
     #v[0xF0, 0x80, 0xF0, 0x80, 0xF0],
     #v[0xF0, 0x80, 0xF0, 0x80, 0x80]]

/-- The default parameters of 00_scope.md R5. -/
def defaultConfig : Config where
  screen := .rows32
  stackDepth := 16
  shiftUsesVy := false
  loadResetsCpu := true
  font := defaultFont

/-- What a byte of memory holds after RESET (10_state.md R38, 70_reset_and_hazards.md R270): `FONT` at
FONT_BASE upward, 0x000..0x04F, zero elsewhere. It is also what an address that memory does not list reads as. -/
def initialByte (c : Config) (a : Nat) : Byte :=
  if h : fontBase ≤ a ∧ a - fontBase < fontLen then
    have hd : (a - fontBase) / glyphBytes < glyphs := Nat.div_lt_of_lt_mul h.2
    have hr : (a - fontBase) % glyphBytes < glyphBytes := Nat.mod_lt _ (by decide)
    (c.font[(a - fontBase) / glyphBytes]'hd)[(a - fontBase) % glyphBytes]'hr
  else 0

end Sys2Proof.Machine
end

