-- ==== Sys2Proof/Machine/State.lean ====
section
/-! DEFINITION. The state of the engine (10_state.md), the operations its host can perform (40_engine_operations.md
R110), and the state after RESET (70_reset_and_hazards.md R270). -/
namespace Sys2Proof.Machine

/-- The three faults of 60_exceptions.md R231. -/
inductive FaultCause where
  /-- A fetch or operand address of 4096 or more: raised by a fetch, `Fx33`, `Fx55`, `Fx65`, `Dxyn`. -/
  | outOfBoundsMemoryAccess
  /-- A `2nnn` with STACK_DEPTH values saved. -/
  | stackOverflow
  /-- `Ex9E` or `ExA1` with Vx above 15. -/
  | invalidKeyIndex
deriving DecidableEq, Repr

/-- The run-state (10_state.md R32), with the wait target (R42) and the fault record (R43) as payload. -/
inductive RunState where
  | notStarted
  | running
  /-- `Fx0A` executed; `t` is the register the next key press is written to. -/
  | waitingForKeyPress (t : Nibble)
  /-- Named by the source and entered by no rule (10_state.md R33). -/
  | paused
  /-- A fault stopped the program: its cause, the address of the faulting instruction and the recorded value
  (60_exceptions.md R232). -/
  | halted (cause : FaultCause) (fpc : Word) (info : Nat)
deriving DecidableEq, Repr

/-- The operations of 40_engine_operations.md R110 that change the engine's state. The random byte of a cycle is the
free value `Config.randomByte`; the read-outs change nothing and are functions of the state. -/
inductive HostOp where
  | reset
  | load (bytes : List Byte)
  | cycle
  | run (n : Nat)
  | tick
  | key (k : Nibble) (pressed : Bool)
deriving DecidableEq, Repr

/-- Memory: the cells that differ from the reset contents, by strictly rising address (`Memory.wf` in Ops.lean). -/
abbrev Memory := List Host.Cell

/-- Everything the spec gives the engine (10_state.md, summary table), its construction parameters, and the model's
own two fields `pending` and `rndCount`. -/
structure State where
  /-- The parameters the engine was built with; nothing changes them (10_state.md R36, log 2). -/
  cfg : Config
  /-- Main memory (10_state.md R37). -/
  mem : Memory
  /-- V0..VF (10_state.md R20). -/
  v : Vector Byte nregs
  /-- I (10_state.md R28). -/
  index : Word
  /-- The program counter (10_state.md R23). -/
  pc : Word
  /-- The call stack, the most recently pushed value first (10_state.md R29, log 8). -/
  stack : List Word
  /-- The delay timer DT (10_state.md R34). -/
  dt : Byte
  /-- The sound timer ST (10_state.md R34). -/
  st : Byte
  /-- The framebuffer, rows from the top, each from the left (10_state.md R40). -/
  fb : List (List Bool)
  /-- The keyboard snapshot (10_state.md R41). -/
  key : Vector Bool nkeys
  /-- The run-state (10_state.md R32). -/
  run : RunState
  /-- The MODEL's own: the host operations still to be performed; when empty, a step is a CYCLE (log 1). -/
  pending : List HostOp
  /-- The MODEL's own: how many free random bytes have been taken (log 3). -/
  rndCount : Nat
deriving DecidableEq, Repr

/-- The reasons a step can end in the host's `fault` outcome: none. A fault of this machine is a next state with the
run-state `Halted` (60_exceptions.md R232), and no operation leaves the next state undefined (R243), so no rule of
the spec raises one. -/
inductive Fault where
deriving DecidableEq, Repr

/-- The reasons a step can be refused. -/
inductive Refusal where
  /-- An instruction without a meaning in `exec`; raised by no arm, since every instruction has its meaning. Safe: a
  run would stop there. -/
  | notModelled (mnemonic : String)
deriving DecidableEq, Repr

/-- An engine built with the parameters `c`, right after RESET (70_reset_and_hazards.md R270). -/
def State.construct (c : Config) : State where
  cfg := c
  mem := []
  v := Vector.replicate nregs 0
  index := 0
  pc := BitVec.ofNat 16 progBase
  stack := []
  dt := 0
  st := 0
  fb := List.replicate c.screen.rows (List.replicate cols false)
  key := Vector.replicate nkeys false
  run := .notStarted
  pending := []
  rndCount := 0

/-- The machine right after reset, with the default parameters of 00_scope.md R5. -/
def State.reset : State := State.construct defaultConfig

end Sys2Proof.Machine
end

