-- ==== Sys2Proof/Machine/Ops.lean ====
section
/-! DEFINITION. The named operations over memory, registers, the call stack and the framebuffer (00_scope.md R8 to
R10), the read-outs of 40_engine_operations.md R119, and taking a fault (60_exceptions.md R232). -/
namespace Sys2Proof.Machine

/-- How an instruction, a cycle or an operation ends. -/
abbrev Result := Host.Outcome State Fault Refusal

/-! ## Memory (10_state.md R37, 20_memory.md) -/

/-- The listed byte at `a`, if there is one. -/
def Memory.lookup : Memory → Nat → Option Byte
  | [], _ => none
  | (b, v) :: rest, a => if a = b then some v else Memory.lookup rest a

/-- The byte at `a`: the listed one, else what RESET put there (10_state.md R38). -/
def Memory.read (c : Config) (m : Memory) (a : Nat) : Byte := (m.lookup a).getD (initialByte c a)

/-- Take every entry at `a` out. -/
def Memory.erase : Memory → Nat → Memory
  | [], _ => []
  | (b, v) :: rest, a => if a = b then Memory.erase rest a else (b, v) :: Memory.erase rest a

/-- Put the entry `(a, x)` in its place by address. -/
def Memory.insert : Memory → Nat → Byte → Memory
  | [], a, x => [(a, x)]
  | (b, v) :: rest, a, x =>
    if a < b then (a, x) :: (b, v) :: rest
    else if a = b then (a, x) :: rest
    else (b, v) :: Memory.insert rest a x

/-- Store one byte, keeping the canonical form: a byte equal to the reset contents is not listed. -/
def Memory.write (c : Config) (m : Memory) (a : Nat) (x : Byte) : Memory :=
  if x = initialByte c a then m.erase a else m.insert a x

/-- Store consecutive bytes from `a` upward, lowest first (20_memory.md R62). -/
def Memory.writeBytes (c : Config) : Memory → Nat → List Byte → Memory
  | m, _, [] => m
  | m, a, x :: xs => Memory.writeBytes c (Memory.write c m a x) (a + 1) xs

/-- The canonical form from address `lo` on: addresses rise strictly and exist (below 4096, 20_memory.md R67), and
no entry equals the reset contents. -/
def Memory.wfFrom (c : Config) : Nat → Memory → Bool
  | _, [] => true
  | lo, (a, x) :: rest =>
    decide (lo ≤ a) && decide (a < memSize) && decide (x ≠ initialByte c a) && Memory.wfFrom c (a + 1) rest

/-- The canonical form of memory: equal memories are equal lists. -/
def Memory.wf (c : Config) (m : Memory) : Bool := Memory.wfFrom c 0 m

/-! ## Framebuffer cells (10_state.md R40) -/

/-- `FB(x, y)`; a cell outside the grid reads as 0. -/
def cellAt (fb : List (List Bool)) (x y : Nat) : Bool := (fb.getD y []).getD x false

/-- `FB(x, y) <- b`; nothing outside the grid. -/
def setCellAt (fb : List (List Bool)) (x y : Nat) (b : Bool) : List (List Bool) :=
  fb.modify y fun row => row.set x b

/-- A framebuffer with every cell 0. -/
def blankScreen (rows : Nat) : List (List Bool) := List.replicate rows (List.replicate cols false)

/-! ## Writing the state -/

/-- `V[x] <- b` (00_scope.md R8). -/
def State.setReg (s : State) (x : Nibble) (b : Byte) : State := { s with v := s.v.set x.toNat b x.isLt }

/-- `I <- a` (00_scope.md R8). -/
def State.setIndex (s : State) (a : Word) : State := { s with index := a }

/-- `pc <- a` (00_scope.md R8). -/
def State.setPc (s : State) (a : Word) : State := { s with pc := a }

/-- The whole call stack. -/
def State.setStack (s : State) (st : List Word) : State := { s with stack := st }

/-- `DT <- b` (00_scope.md R8). -/
def State.setDt (s : State) (b : Byte) : State := { s with dt := b }

/-- `ST <- b` (00_scope.md R8). -/
def State.setSt (s : State) (b : Byte) : State := { s with st := b }

/-- The whole framebuffer. -/
def State.setFb (s : State) (f : List (List Bool)) : State := { s with fb := f }

/-- The whole memory. -/
def State.setMem (s : State) (m : Memory) : State := { s with mem := m }

/-- `key[k] <- b` (00_scope.md R10). -/
def State.setKey (s : State) (k : Nibble) (b : Bool) : State := { s with key := s.key.set k.toNat b k.isLt }

/-- `run <- r` (10_state.md R33). -/
def State.setRun (s : State) (r : RunState) : State := { s with run := r }

/-- The host operations still to be performed (log 1). -/
def State.setPending (s : State) (ops : List HostOp) : State := { s with pending := ops }

/-- How many random bytes have been taken (log 3). -/
def State.setRndCount (s : State) (k : Nat) : State := { s with rndCount := k }

/-- Store consecutive bytes from `a` upward. -/
def State.storeBytes (s : State) (a : Nat) (bs : List Byte) : State :=
  s.setMem (Memory.writeBytes s.cfg s.mem a bs)

/-! ## Read-outs (40_engine_operations.md R119) -/

/-- `V[x]` (00_scope.md R8). -/
def State.reg (s : State) (x : Nibble) : Byte := s.v[x.toNat]'x.isLt

/-- `mem[a]`, the raw byte (00_scope.md R9). -/
def State.readByte (s : State) (a : Nat) : Byte := Memory.read s.cfg s.mem a

/-- `FB(x, y)` (00_scope.md R10). -/
def State.pixel (s : State) (x y : Nat) : Bool := cellAt s.fb x y

/-- `key[k]` (00_scope.md R10). -/
def State.keyHeld (s : State) (k : Nibble) : Bool := s.key[k.toNat]'k.isLt

/-- `depth`, the number of values on the stack (00_scope.md R10). -/
def State.depth (s : State) : Nat := s.stack.length

/-- The stack contents in the order they were pushed (40_engine_operations.md R119). -/
def State.stackContents (s : State) : List Word := s.stack.reverse

/-- `sound_active = (ST > 0)` (10_state.md R35). -/
def State.soundActive (s : State) : Bool := decide (0 < s.st.toNat)

/-- Every framebuffer cell as 0 or 1 in row-major order (10_state.md R40, 40_engine_operations.md R119). -/
def State.framebufferOut (s : State) : List Byte := s.fb.flatten.map fun b => if b then 1 else 0

/-- `ROWS` of this engine (00_scope.md R5). -/
def State.rows (s : State) : Nat := s.cfg.screen.rows

/-! ## Taking a fault (60_exceptions.md R231 to R233)

There is no return from a fault to write beside it: `Halted` is left only by LOAD and RESET (60_exceptions.md R239,
Cycle.lean). -/

/-- The numbers 60_exceptions.md R231 gives the faults. -/
def FaultCause.code : FaultCause → Nat
  | .outOfBoundsMemoryAccess => 1
  | .stackOverflow => 2
  | .invalidKeyIndex => 3

/-- Fault entry (60_exceptions.md R232): the run-state is the only thing that changes. -/
def State.enterFault (s : State) (cause : FaultCause) (fpc : Word) (info : Nat) : State :=
  s.setRun (.halted cause fpc info)

/-- The address of the executing instruction, pc being already advanced by 2 (40_engine_operations.md R113). -/
def State.fpc (s : State) : Word := s.pc - 2

/-- `raise cause(info)` by an executing instruction (00_scope.md R11): a next state, in which nothing but the
run-state differs. -/
def raise (cause : FaultCause) (info : Nat) (s : State) : Result := .next (s.enterFault cause s.fpc info)

/-- The lowest offending address of an access from `base` upward that leaves memory (60_exceptions.md R231:
`max(I, MEM_SIZE)`). -/
def offendingAddress (base : Nat) : Nat := max base memSize

/-- An instruction that accesses the addresses from `base` to `last`: its effect `done` if all exist, else the fault
and none of the effect (60_exceptions.md R233). -/
def checkedAccess (base last : Nat) (s done : State) : Result :=
  if memSize ≤ last then raise .outOfBoundsMemoryAccess (offendingAddress base) s else .next done

/-! ## Control (00_scope.md R10) -/

/-- `skip` when the condition holds: `pc <- pc + 2` (00_scope.md R10). -/
def State.skipIf (s : State) (b : Bool) : State := if b then s.setPc (s.pc + 2) else s

/-- `push(a)` (00_scope.md R10). -/
def State.push (s : State) (a : Word) : State := s.setStack (a :: s.stack)

end Sys2Proof.Machine
end

