-- ==== Sys2Proof/Machine/Operands.lean ====
section
/-! DEFINITION. The operand forms (30_encoding.md R93, 43_index_memory.md R187): immediates widened with zeros, the
shifted register, I plus an offset, the register block, the decimal digits, the key slot, the random byte. -/
namespace Sys2Proof.Machine

/-- `nnn` as a 16-bit value, zero-extended (43_index_memory.md R180). -/
def addrWord (nnn : Addr) : Word := nnn.setWidth 16

/-- A register as a 16-bit value, zero-extended. -/
def byteWord (b : Byte) : Word := b.setWidth 16

/-- I as an unbounded address (20_memory.md R61). -/
def State.base (s : State) : Nat := s.index.toNat

/-- The register `8xy6` and `8xyE` shift: Vx, or Vy when SHIFT_USES_VY (42_alu.md R171). -/
def State.shiftOperand (s : State) (x y : Nibble) : Byte := if s.cfg.shiftUsesVy then s.reg y else s.reg x

/-- `V[0] .. V[x]`, lowest register first (43_index_memory.md R185). -/
def State.regsUpTo (s : State) (x : Nibble) : List Byte := s.v.toList.take (x.toNat + 1)

/-- `V[i] <- mem[base + i]` for `i` below `k` (43_index_memory.md R186). -/
def State.loadBlock (s : State) (base : Nat) : Nat → State
  | 0 => s
  | k + 1 => (State.loadBlock s base k).setReg (BitVec.ofNat 4 k) (s.readByte (base + k))

/-- The three decimal digits of a byte, hundreds first (43_index_memory.md R184). -/
def bcdDigits (b : Byte) : List Byte :=
  [BitVec.ofNat 8 (b.toNat / 100), BitVec.ofNat 8 ((b.toNat / 10) % 10), BitVec.ofNat 8 (b.toNat % 10)]

/-- The `n` bytes of a sprite from `base` upward, top row first (44_display.md R205). -/
def State.spriteBytes (s : State) (base n : Nat) : List Byte := (List.range n).map fun r => s.readByte (base + r)

/-- The key slot a register names, when it names one (45_io_timers.md R211). -/
def keySlot (b : Byte) : Nibble := b.setWidth 4

/-- The free byte the next `Cxnn` gets (40_engine_operations.md R115, log 3). -/
def State.nextRandom (s : State) : Byte := Config.randomByte s.rndCount

end Sys2Proof.Machine
end

