-- ==== Sys2Proof/Machine/Flags.lean ====
section
/-! DEFINITION. The flag VF (10_state.md R26, 42_alu.md R161, R162): every flag computation of the machine, and the
order in which a result and its flag are written. -/
namespace Sys2Proof.Machine

/-- A flag write stores the byte 0 or 1 (10_state.md R26). -/
def flagByte (b : Bool) : Byte := if b then 1 else 0

/-- Carry: the true sum exceeds 255 (42_alu.md R161). -/
def carryOut (a b : Byte) : Bool := decide (255 < a.toNat + b.toNat)

/-- Not borrow: the minuend is at least the subtrahend (42_alu.md R161). -/
def notBorrow (minuend subtrahend : Byte) : Bool := decide (subtrahend.toNat ≤ minuend.toNat)

/-- The bit a right shift drops (42_alu.md R171). -/
def shiftOutRight (a : Byte) : Bool := a.getLsbD 0

/-- The bit a left shift drops (42_alu.md R173). -/
def shiftOutLeft (a : Byte) : Bool := a.getLsbD 7

/-- `VF <- 1 if f else 0` (10_state.md R26). -/
def State.setFlag (s : State) (f : Bool) : State := s.setReg flagReg (flagByte f)

/-- The result to `V[x]` first and the flag to VF second, so that the flag wins when `x = 15` (42_alu.md R162). -/
def State.setResultFlag (s : State) (x : Nibble) (r : Byte) (f : Bool) : State := (s.setReg x r).setFlag f

end Sys2Proof.Machine
end

