-- ==== Sys2Proof/Machine/Alu.lean ====
section
/-! DEFINITION. Register load, add immediate and the register-register ALU (42_alu.md). Every operand is read before
anything is written; arithmetic wraps modulo 256 (42_alu.md R160, R162). -/
namespace Sys2Proof.Machine

/-- `6xnn` (42_alu.md R163). -/
def execLdImm (x : Nibble) (nn : Byte) (s : State) : Result := .next (s.setReg x nn)

/-- `7xnn` (42_alu.md R164): no flag. -/
def execAddImm (x : Nibble) (nn : Byte) (s : State) : Result := .next (s.setReg x (s.reg x + nn))

/-- `8xy0` (42_alu.md R165). -/
def execLdReg (x y : Nibble) (s : State) : Result := .next (s.setReg x (s.reg y))

/-- `8xy1` (42_alu.md R166): VF is not touched. -/
def execOr (x y : Nibble) (s : State) : Result := .next (s.setReg x (s.reg x ||| s.reg y))

/-- `8xy2` (42_alu.md R167): VF is not touched. -/
def execAnd (x y : Nibble) (s : State) : Result := .next (s.setReg x (s.reg x &&& s.reg y))

/-- `8xy3` (42_alu.md R168): VF is not touched. -/
def execXor (x y : Nibble) (s : State) : Result := .next (s.setReg x (s.reg x ^^^ s.reg y))

/-- `8xy4` (42_alu.md R169): VF = carry. -/
def execAddReg (x y : Nibble) (s : State) : Result :=
  .next (s.setResultFlag x (s.reg x + s.reg y) (carryOut (s.reg x) (s.reg y)))

/-- `8xy5` (42_alu.md R170): VF = not borrow. -/
def execSub (x y : Nibble) (s : State) : Result :=
  .next (s.setResultFlag x (s.reg x - s.reg y) (notBorrow (s.reg x) (s.reg y)))

/-- `8xy6` (42_alu.md R171): VF = the old bit 0. -/
def execShr (x y : Nibble) (s : State) : Result :=
  .next (s.setResultFlag x (s.shiftOperand x y >>> 1) (shiftOutRight (s.shiftOperand x y)))

/-- `8xy7` (42_alu.md R172): Vy - Vx, VF = not borrow. -/
def execSubn (x y : Nibble) (s : State) : Result :=
  .next (s.setResultFlag x (s.reg y - s.reg x) (notBorrow (s.reg y) (s.reg x)))

/-- `8xyE` (42_alu.md R173): VF = the old bit 7. -/
def execShl (x y : Nibble) (s : State) : Result :=
  .next (s.setResultFlag x (s.shiftOperand x y <<< 1) (shiftOutLeft (s.shiftOperand x y)))

end Sys2Proof.Machine
end

