-- ==== Sys2Proof/Machine/Display.lean ====
section
/-! DEFINITION. The framebuffer component and the display instructions (44_display.md). -/
namespace Sys2Proof.Machine

/-- `is_offscreen(x, y)` on unwrapped coordinates (44_display.md R202). -/
def isOffscreen (rows x y : Nat) : Bool := decide (cols ≤ x) || decide (rows ≤ y)

/-- `set_pixel(x, y)` (44_display.md R201): wraps the coordinates, XORs the cell with 1, and returns whether the cell
went from 1 to 0. -/
def setPixel (rows : Nat) (fb : List (List Bool)) (x y : Nat) : List (List Bool) × Bool :=
  let cx := x % cols
  let cy := y % rows
  let old := cellAt fb cx cy
  (setCellAt fb cx cy (!old), old)

/-- The cells a set bit of one sprite byte lands on unclipped, left pixel first; bit 7 is the leftmost
(44_display.md R204, R205). -/
def drawnInRow (rows ox y : Nat) (b : Byte) : List (Nat × Nat) :=
  ((List.range 8).filter fun c => b.getLsbD (7 - c) && !isOffscreen rows (ox + c) y).map fun c => (ox + c, y)

/-- The cells a sprite at the origin `(ox, oy)` draws, top row first: the "drawn" cells of 44_display.md R206. -/
def drawnCells (rows ox : Nat) : Nat → List Byte → List (Nat × Nat)
  | _, [] => []
  | oy, b :: rest => drawnInRow rows ox oy b ++ drawnCells rows ox (oy + 1) rest

/-- `set_pixel` on each cell in turn, with whether any of them collided (44_display.md R204). -/
def drawCells (rows : Nat) : List (List Bool) → List (Nat × Nat) → List (List Bool) × Bool
  | fb, [] => (fb, false)
  | fb, (x, y) :: rest =>
    let p := setPixel rows fb x y
    let q := drawCells rows p.1 rest
    (q.1, p.2 || q.2)

/-- The cells `Dxyn` draws from this state: the origin wraps, the cells do not (44_display.md R204). -/
def State.spriteCells (s : State) (x y n : Nibble) : List (Nat × Nat) :=
  drawnCells s.rows ((s.reg x).toNat % cols) ((s.reg y).toNat % s.rows) (s.spriteBytes s.base n.toNat)

/-- `Dxyn` without its bounds check: the framebuffer, then VF = collision (44_display.md R204). -/
def State.drawSprite (s : State) (x y n : Nibble) : State :=
  let p := drawCells s.rows s.fb (s.spriteCells x y n)
  (s.setFb p.1).setFlag p.2

/-- `00E0` (44_display.md R203). -/
def execCls (s : State) : Result := .next (s.setFb (blankScreen s.rows))

/-- `Dxyn` (44_display.md R204): `n = 0` reads no memory and cannot fault; else all `n` bytes are checked first. -/
def execDrw (x y n : Nibble) (s : State) : Result :=
  if n = 0 then .next (s.drawSprite x y n)
  else checkedAccess s.base (s.base + n.toNat - 1) s (s.drawSprite x y n)

end Sys2Proof.Machine
end

