-- ==== Sys2Proof/Machine/Flow.lean ====
section
/-! DEFINITION. Control transfer: return, jump, call, skips and the no-op (41_flow.md). pc is already advanced by 2
when a meaning starts (40_engine_operations.md R113). -/
namespace Sys2Proof.Machine

/-- `00EE` (41_flow.md R140): pop into pc; nothing on an empty stack. -/
def execRet (s : State) : Result :=
  match s.stack with
  | [] => .next s
  | a :: rest => .next ((s.setStack rest).setPc a)

/-- `1nnn` (41_flow.md R141). -/
def execJp (nnn : Addr) (s : State) : Result := .next (s.setPc (addrWord nnn))

/-- `2nnn` (41_flow.md R142): the pushed value is the advanced pc. -/
def execCall (nnn : Addr) (s : State) : Result :=
  if s.depth = s.cfg.stackDepth then raise .stackOverflow nnn.toNat s
  else .next ((s.push s.pc).setPc (addrWord nnn))

/-- `3xnn` (41_flow.md R143). -/
def execSeImm (x : Nibble) (nn : Byte) (s : State) : Result := .next (s.skipIf (s.reg x == nn))

/-- `4xnn` (41_flow.md R144). -/
def execSneImm (x : Nibble) (nn : Byte) (s : State) : Result := .next (s.skipIf (s.reg x != nn))

/-- `5xy0` (41_flow.md R145). -/
def execSeReg (x y : Nibble) (s : State) : Result := .next (s.skipIf (s.reg x == s.reg y))

/-- `9xy0` (41_flow.md R146). -/
def execSneReg (x y : Nibble) (s : State) : Result := .next (s.skipIf (s.reg x != s.reg y))

/-- Every unlisted word (41_flow.md R147): nothing beyond the advanced pc. -/
def execNop (_w : Word) (s : State) : Result := .next s

end Sys2Proof.Machine
end

