-- ==== Sys2Proof/Machine/IndexMemory.lean ====
section
/-! DEFINITION. Index register and memory instructions (43_index_memory.md). Each memory instruction checks its whole
range before its first write, and none changes I (43_index_memory.md R187, R188). -/
namespace Sys2Proof.Machine

/-- `Annn` (43_index_memory.md R180). -/
def execLdI (nnn : Addr) (s : State) : Result := .next (s.setIndex (addrWord nnn))

/-- `Bnnn` (43_index_memory.md R181): loads I, does not jump. -/
def execLdIV0 (nnn : Addr) (s : State) : Result := .next (s.setIndex (addrWord nnn + byteWord (s.reg 0x0#4)))

/-- `Fx1E` (43_index_memory.md R182): modulo 65536, no flag. -/
def execAddI (x : Nibble) (s : State) : Result := .next (s.setIndex (s.index + byteWord (s.reg x)))

/-- `Fx29` (43_index_memory.md R183): the whole byte times GLYPH_BYTES. -/
def execLdF (x : Nibble) (s : State) : Result := .next (s.setIndex (byteWord (s.reg x) * BitVec.ofNat 16 glyphBytes))

/-- `Fx33` (43_index_memory.md R184). -/
def execLdB (x : Nibble) (s : State) : Result :=
  checkedAccess s.base (s.base + 2) s (s.storeBytes s.base (bcdDigits (s.reg x)))

/-- `Fx55` (43_index_memory.md R185). -/
def execStoreRegs (x : Nibble) (s : State) : Result :=
  checkedAccess s.base (s.base + x.toNat) s (s.storeBytes s.base (s.regsUpTo x))

/-- `Fx65` (43_index_memory.md R186). -/
def execLoadRegs (x : Nibble) (s : State) : Result :=
  checkedAccess s.base (s.base + x.toNat) s (s.loadBlock s.base (x.toNat + 1))

end Sys2Proof.Machine
end

