-- ==== Sys2Proof/Machine/IoTimers.lean ====
section
/-! DEFINITION. Random, keyboard and timer instructions (45_io_timers.md). -/
namespace Sys2Proof.Machine

/-- `V[x] <- rnd and nn` for a given byte `rnd` (45_io_timers.md R210). -/
def State.maskRandom (s : State) (x : Nibble) (nn rnd : Byte) : State := s.setReg x (rnd &&& nn)

/-- `Cxnn` (45_io_timers.md R210): takes the next free byte. -/
def execRnd (x : Nibble) (nn : Byte) (s : State) : Result :=
  .next ((s.maskRandom x nn s.nextRandom).setRndCount (s.rndCount + 1))

/-- A skip on key `V[x]`: the fault for an index above 15, else a skip when the key's state is `want`
(45_io_timers.md R211, R212). -/
def skipOnKey (x : Nibble) (want : Bool) (s : State) : Result :=
  if nkeys ≤ (s.reg x).toNat then raise .invalidKeyIndex (s.reg x).toNat s
  else .next (s.skipIf (s.keyHeld (keySlot (s.reg x)) == want))

/-- `Ex9E` (45_io_timers.md R211). -/
def execSkp (x : Nibble) (s : State) : Result := skipOnKey x true s

/-- `ExA1` (45_io_timers.md R212). -/
def execSknp (x : Nibble) (s : State) : Result := skipOnKey x false s

/-- `Fx07` (45_io_timers.md R213). -/
def execLdVxDT (x : Nibble) (s : State) : Result := .next (s.setReg x s.dt)

/-- `Fx0A` (45_io_timers.md R214): the register is written later, by the KEY operation. -/
def execLdVxK (x : Nibble) (s : State) : Result := .next (s.setRun (.waitingForKeyPress x))

/-- `Fx15` (45_io_timers.md R215). -/
def execLdDTVx (x : Nibble) (s : State) : Result := .next (s.setDt (s.reg x))

/-- `Fx18` (45_io_timers.md R216). -/
def execLdSTVx (x : Nibble) (s : State) : Result := .next (s.setSt (s.reg x))

end Sys2Proof.Machine
end

