-- ==== Sys2Proof/Machine/Cycle.lean ====
section
/-! DEFINITION. The operations of the host interface (40_engine_operations.md): CYCLE (guard, fetch, advance, decode,
execute), RUN, TICK, KEY, LOAD, RESET, what CYCLE and RUN report, and which operation a step performs. -/
namespace Sys2Proof.Machine

/-! ## CYCLE -/

/-- The instruction word at pc, big-endian (40_engine_operations.md R113). -/
def State.fetchWord (s : State) : Word := wordOfBytes (s.readByte s.pc.toNat) (s.readByte (s.pc.toNat + 1))

/-- pc as the executing instruction sees it: past its word (40_engine_operations.md R113). -/
def State.advance (s : State) : State := s.setPc (s.pc + 2)

/-- Fetch check, fetch, advance, decode, execute (40_engine_operations.md R112, R113). A fetch fault records pc
itself and leaves it. -/
def fetchExecute (s : State) : Result :=
  if memSize ≤ s.pc.toNat + 1 then
    .next (s.enterFault .outOfBoundsMemoryAccess s.pc (offendingAddress s.pc.toNat))
  else exec (decode s.fetchWord) s.advance

/-- `CYCLE` (40_engine_operations.md R112): nothing at all unless `Running`. -/
def cycle (s : State) : Result := if s.run = .running then fetchExecute s else .next s

/-- `RUN(N)`: exactly N cycles, the guard honoured in each (40_engine_operations.md R116). -/
def runCycles : Nat → State → Result
  | 0, s => .next s
  | n + 1, s =>
    match cycle s with
    | .next t => runCycles n t
    | .fault r => .fault r
    | .refused r => .refused r

/-! ## TICK, KEY, LOAD, RESET -/

/-- One timer's decrement, floored at 0 (40_engine_operations.md R117). -/
def tickDown (b : Byte) : Byte := if b = 0 then 0 else b - 1

/-- `TICK` (40_engine_operations.md R117), in every run-state. -/
def State.tick (s : State) : State := (s.setDt (tickDown s.dt)).setSt (tickDown s.st)

/-- What a press does to a wait (40_engine_operations.md R118): the key index into the target register, and
`Running`. -/
def State.resolveWait (s : State) (k : Nibble) : State :=
  match s.run with
  | .waitingForKeyPress t => (s.setReg t (k.setWidth 8)).setRun .running
  | .notStarted => s
  | .running => s
  | .paused => s
  | .halted _ _ _ => s

/-- `KEY(k, pressed)` (40_engine_operations.md R118), in every run-state: the snapshot always, the wait on a press. -/
def State.pressKey (s : State) (k : Nibble) (pressed : Bool) : State :=
  if pressed then (s.setKey k true).resolveWait k else s.setKey k false

/-- V, I, the stack, DT and ST at their reset values (40_engine_operations.md R111, LOAD_RESETS_CPU). -/
def State.clearCpu (s : State) : State :=
  { s with v := Vector.replicate nregs 0, index := 0, stack := [], dt := 0, st := 0 }

/-- `LOAD(bytes)` (40_engine_operations.md R111), in every run-state; bytes beyond PROG_MAX are ignored. -/
def State.loadProgram (s : State) (bytes : List Byte) : State :=
  let t := ((s.storeBytes progBase (bytes.take progMax)).setPc (BitVec.ofNat 16 progBase)).setRun .running
  if s.cfg.loadResetsCpu then t.clearCpu else t

/-- `RESET` (70_reset_and_hazards.md R270): everything the spec gives the engine at its reset value. The parameters
are the engine's own and the model's two fields are the host's, so they stay (log 1, 2, 3). -/
def State.resetEngine (s : State) : State :=
  ((State.construct s.cfg).setPending s.pending).setRndCount s.rndCount

/-! ## One operation -/

/-- What an operation does (40_engine_operations.md R110). -/
def perform (op : HostOp) (s : State) : Result :=
  match op with
  | .reset => .next s.resetEngine
  | .load bytes => .next (s.loadProgram bytes)
  | .cycle => cycle s
  | .run n => runCycles n s
  | .tick => .next s.tick
  | .key k pressed => .next (s.pressKey k pressed)

/-- The operation a step performs: the first pending one, and a CYCLE when none is pending (log 1). -/
def nextOperation (s : State) : Result :=
  match s.pending with
  | [] => cycle s
  | op :: rest => perform op (s.setPending rest)

/-! ## What CYCLE and RUN report (40_engine_operations.md R114, R116) -/

/-- The conditions that are reported and stop nothing (60_exceptions.md R241). -/
inductive Diagnostic where
  | emptyStackReturn
  | unknownOpcodeVariant
deriving DecidableEq, Repr

/-- The four results of a CYCLE (40_engine_operations.md R114). -/
inductive CycleResult where
  | idle
  | executed
  | executedWithDiagnostic (d : Diagnostic)
  | faulted (cause : FaultCause)
deriving DecidableEq, Repr

/-- The diagnostic of an executed instruction: a return on an empty stack, or a no-op word (60_exceptions.md R231). -/
def diagnosticOf (i : Instr) (s : State) : Option Diagnostic :=
  match i with
  | .ret => if s.stack = [] then some .emptyStackReturn else none
  | .nop _ => some .unknownOpcodeVariant
  | _ => none

/-- What a CYCLE returned, from the states before and after it: the result carries nothing more
(40_engine_operations.md R114). -/
def cycleResult (before after : State) : CycleResult :=
  if before.run = .running then
    match after.run with
    | .halted cause _ _ => .faulted cause
    | _ =>
      match diagnosticOf (decode before.fetchWord) before with
      | some d => .executedWithDiagnostic d
      | none => .executed
  else .idle

/-- The results of the cycles of a `RUN(N)`, in order (40_engine_operations.md R116). -/
def runResults : Nat → State → List CycleResult
  | 0, _ => []
  | n + 1, s =>
    match cycle s with
    | .next t => cycleResult s t :: runResults n t
    | .fault _ => []
    | .refused _ => []

end Sys2Proof.Machine
end

