-- ==== Sys2Proof/Machine/Step.lean ====
section
/-! DEFINITION. One step of the machine, and placing an instruction where the next step runs it. -/
namespace Sys2Proof.Machine

/-- One step: the first pending host operation, or one CYCLE when none is pending (log 1). -/
def step (s : State) : Host.Outcome State Fault Refusal := nextOperation s

/-- `s` with the instruction whose bits are `w` stored at pc, `Running`, and no host operation pending, so that the
next step fetches and runs it; it stands for a LOAD (log 4). Where no word fits at pc, pc is the load address. -/
def State.withFetchWord (s : State) (nbits w : Nat) : State :=
  let pc : Word := if memSize ≤ s.pc.toNat + 1 then BitVec.ofNat 16 progBase else s.pc
  (((s.storeBytes pc.toNat (bytesOfWord (tableWord nbits w))).setPc pc).setRun .running).setPending []

end Sys2Proof.Machine
end

