-- ==== Sys2Proof/Safety.lean ====
section
/-! DEFINITION. What the spec promises of every state a run reaches (the invariant), the frames claims are stated in,
what a safe run is, and the terminal condition the spec recommends. -/
namespace Sys2Proof.Machine

/-! ## The invariant -/

/-- A grid of `rows` rows of COLS cells (10_state.md R40). -/
def gridFull (rows : Nat) (fb : List (List Bool)) : Prop := fb.length = rows ∧ ∀ row ∈ fb, row.length = cols

/-- The framebuffer is a full grid (10_state.md R40). -/
def State.screenFull (s : State) : Prop := gridFull s.rows s.fb

/-- pc is at most 0x1002 (10_state.md R25). -/
def State.pcInRange (s : State) : Prop := s.pc.toNat ≤ 0x1002

/-- At most STACK_DEPTH entries (10_state.md R29, R30), each at most 0x1000 (10_state.md R25, R29). -/
def State.stackInRange (s : State) : Prop :=
  s.depth ≤ s.cfg.stackDepth ∧ ∀ a ∈ s.stack, a.toNat ≤ 0x1000

/-- The invariant of the machine: memory in canonical form, a full framebuffer, pc and the call stack in range. -/
structure State.Inv (s : State) : Prop where
  memory : Memory.wf s.cfg s.mem = true
  screen : s.screenFull
  pc : s.pcInRange
  stack : s.stackInRange

/-! ## Frames -/

/-- The pieces of state an instruction or operation may be allowed to change. -/
inductive Piece where
  | regs | index | pc | stack | dt | st | mem | screen | keys | run | random
deriving DecidableEq, Repr

/-- From `s` to `t` every piece but those named reads the same; every register, every byte of memory and every key is
read one by one. The parameters and the pending operations are always the same. -/
def unchangedBut (changed : List Piece) (s t : State) : Prop :=
  (Piece.regs ∉ changed → ∀ z, t.reg z = s.reg z) ∧
  (Piece.index ∉ changed → t.index = s.index) ∧
  (Piece.pc ∉ changed → t.pc = s.pc) ∧
  (Piece.stack ∉ changed → t.stack = s.stack) ∧
  (Piece.dt ∉ changed → t.dt = s.dt) ∧
  (Piece.st ∉ changed → t.st = s.st) ∧
  (Piece.mem ∉ changed → ∀ a, t.readByte a = s.readByte a) ∧
  (Piece.screen ∉ changed → t.fb = s.fb) ∧
  (Piece.keys ∉ changed → ∀ k, t.keyHeld k = s.keyHeld k) ∧
  (Piece.run ∉ changed → t.run = s.run) ∧
  (Piece.random ∉ changed → t.rndCount = s.rndCount) ∧
  t.cfg = s.cfg ∧ t.pending = s.pending

/-- Every word that satisfies `(op and mask) == pattern` decodes to the instruction `i op` (30_encoding.md R94). -/
def encodes (mask pattern : Word) (i : Word → Instr) : Prop := ∀ op : Word, op &&& mask = pattern → decode op = i op

/-- The register the `x` field of an instruction makes it write (10_state.md R21); `Fx65` writes a block instead. -/
def destination : Instr → Option Nibble
  | .ldImm x _ => some x
  | .addImm x _ => some x
  | .ldReg x _ => some x
  | .orReg x _ => some x
  | .andReg x _ => some x
  | .xorReg x _ => some x
  | .addReg x _ => some x
  | .subReg x _ => some x
  | .shr x _ => some x
  | .subn x _ => some x
  | .shl x _ => some x
  | .rnd x _ => some x
  | .ldVxDT x => some x
  | .cls => none
  | .ret => none
  | .jp _ => none
  | .call _ => none
  | .seImm _ _ => none
  | .sneImm _ _ => none
  | .seReg _ _ => none
  | .sneReg _ _ => none
  | .ldI _ => none
  | .ldIV0 _ => none
  | .drw _ _ _ => none
  | .skp _ => none
  | .sknp _ => none
  | .ldVxK _ => none
  | .ldDTVx _ => none
  | .ldSTVx _ => none
  | .addI _ => none
  | .ldF _ => none
  | .ldB _ => none
  | .storeRegs _ => none
  | .loadRegs _ => none
  | .nop _ => none

/-- The six instructions that write VF as a flag (10_state.md R26). -/
def writesFlag : Instr → Bool
  | .addReg _ _ => true
  | .subReg _ _ => true
  | .shr _ _ => true
  | .subn _ _ => true
  | .shl _ _ => true
  | .drw _ _ _ => true
  | .cls => false
  | .ret => false
  | .jp _ => false
  | .call _ => false
  | .seImm _ _ => false
  | .sneImm _ _ => false
  | .seReg _ _ => false
  | .ldImm _ _ => false
  | .addImm _ _ => false
  | .ldReg _ _ => false
  | .orReg _ _ => false
  | .andReg _ _ => false
  | .xorReg _ _ => false
  | .sneReg _ _ => false
  | .ldI _ => false
  | .ldIV0 _ => false
  | .rnd _ _ => false
  | .skp _ => false
  | .sknp _ => false
  | .ldVxDT _ => false
  | .ldVxK _ => false
  | .ldDTVx _ => false
  | .ldSTVx _ => false
  | .addI _ => false
  | .ldF _ => false
  | .ldB _ => false
  | .storeRegs _ => false
  | .loadRegs _ => false
  | .nop _ => false

/-! ## Sprites -/

/-- A set bit of the sprite `Dxyn` draws from `s` lands on the cell `(px, py)`, the origin wrapped and the offset not
(44_display.md R204). Whether the cell is on the screen is not asked here. -/
def State.spriteCovers (s : State) (x y n : Nibble) (px py : Nat) : Prop :=
  ∃ r c : Nat, r < n.toNat ∧ c < 8 ∧ px = (s.reg x).toNat % 64 + c ∧ py = (s.reg y).toNat % s.rows + r ∧
    (s.readByte (s.base + r)).getLsbD (7 - c) = true

/-- The sprite draws a cell of the screen that `s` shows as `b`. -/
def State.spriteHits (s : State) (x y n : Nibble) (b : Bool) : Prop :=
  ∃ px py : Nat, px < 64 ∧ py < s.rows ∧ s.spriteCovers x y n px py ∧ s.pixel px py = b

/-! ## Runs -/

/-- The run-state is `Halted` (60_exceptions.md R232). -/
def State.isHalted (s : State) : Prop := ∃ cause fpc info, s.run = .halted cause fpc info

/-- A safe run: the program has not been stopped by a fault (40_engine_operations.md R122). -/
def State.safe (s : State) : Prop := ¬ s.isHalted

/-- The terminal condition 40_engine_operations.md R122 recommends: `Running`, pc at a jump to its own address. -/
def State.atSelfJump (s : State) : Prop :=
  s.run = .running ∧ s.pc.toNat + 1 < memSize ∧ ∃ nnn : Addr, decode s.fetchWord = .jp nnn ∧ addrWord nnn = s.pc

end Sys2Proof.Machine
end

