-- ==== Sys2Proof/Certificates/Slice0/Obligations.lean ====
section
/-! DEFINITION. The statements for the provers. `s` is the state an instruction starts from, pc already advanced by 2
(40_engine_operations.md R113), so the address of the executing instruction is `s.pc - 2`. -/
open Sys2Proof Sys2Proof.Machine

/-! ## Decoding and encoding -/

/-- A few words of each family decode to the instruction they stand for (95_test_vectors.md T1, T2, T11 to T17). -/
def Obligations.SampleWordsDecode : Prop :=
  decode 0x00E0 = .cls ∧ decode 0x00EE = .ret ∧ decode 0x1234 = .jp 0x234 ∧ decode 0x3112 = .seImm 0x1 0x12 ∧
  decode 0x8F14 = .addReg 0xF 0x1 ∧ decode 0x812E = .shl 0x1 0x2 ∧ decode 0xBFFF = .ldIV0 0xFFF ∧
  decode 0xD5A7 = .drw 0x5 0xA 0x7 ∧ decode 0xE19E = .skp 0x1 ∧ decode 0xF20A = .ldVxK 0x2 ∧
  decode 0xF355 = .storeRegs 0x3 ∧ decode 0x01E0 = .nop 0x01E0 ∧ decode 0x5121 = .nop 0x5121 ∧
  decode 0xF1FF = .nop 0xF1FF

/-- Decoding the word of any well-formed instruction gives it back, every operand at every value. -/
def Obligations.DecodeOfEncodeIsIdentity : Prop := ∀ i : Instr, i.wellFormed = true → decode (encode i) = i

/-- Every word decodes to a well-formed instruction whose word it is: no bit of a word is lost. -/
def Obligations.EncodeOfDecodeIsIdentity : Prop :=
  ∀ op : Word, (decode op).wellFormed = true ∧ encode (decode op) = op

/-- A word a row of the opcode map selects decodes to that row's instruction (so at most one row selects it), and a
word no row selects decodes to the no-op. -/
def Obligations.DecodingFollowsOpcodeMap : Prop :=
  ∀ op : Word, (∀ r ∈ opcodeRows, r.selects op = true → (decode op).row = some r) ∧
    (isListed op = false → decode op = .nop op)

/-! ## The instruction cycle -/

/-- With nothing pending, `Running` and a word at pc, a step is the meaning of the instruction the two bytes at pc
decode to, run with pc moved past them. That a step is a CYCLE when no host operation is pending is the model's own
choice (log 1). -/
def Obligations.StepRunsDecodedInstruction : Prop :=
  ∀ (s : State) (i : Instr), s.pending = [] → s.run = .running → s.pc.toNat + 1 < 4096 →
    decodeBytes [s.readByte s.pc.toNat, s.readByte (s.pc.toNat + 1)] = .ok (i, []) →
    step s = exec i (s.setPc (s.pc + 2))

/-- CYCLE. Its guard and fetch check (40_engine_operations.md R112): outside `Running` nothing changes and the result is
`Idle`; in `Running` a word that does not lie in memory halts the program with the lowest offending address, pc not
advanced and nothing else changed. Else (R113) the word at pc is decoded and executed with pc moved past it. That a
cycle reports a result is the spec's decision D29, and that it is a function of the states before and after is the
model's choice (log 11). -/
def Obligations.CycleGuardAndFetchFault : Prop :=
  ∀ s : State,
    (s.run ≠ .running → cycle s = .next s ∧ cycleResult s s = .idle) ∧
    (s.run = .running → 4096 ≤ s.pc.toNat + 1 → ∃ t, cycle s = .next t ∧
      t.run = .halted .outOfBoundsMemoryAccess s.pc (if 4096 ≤ s.pc.toNat then s.pc.toNat else s.pc.toNat + 1) ∧
      unchangedBut [.run] s t ∧ cycleResult s t = .faulted .outOfBoundsMemoryAccess) ∧
    (s.run = .running → s.pc.toNat + 1 < 4096 → cycle s = exec (decode s.fetchWord) (s.setPc (s.pc + 2)))

/-- A fault of a cycle records the address of the faulting instruction and is what the cycle reports; the run-state,
and pc past the instruction when it was fetched, are all that changes. That all checks come before all writes and
what pc holds afterwards is the spec's own decision (92_eei_decisions.md D5). -/
def Obligations.FaultsAreRecordedAndWriteNothing : Prop :=
  ∀ (s t : State) (cause : FaultCause) (fpc : Word) (info : Nat), s.run = .running →
    cycle s = .next t → t.run = .halted cause fpc info →
    fpc = s.pc ∧ cycleResult s t = .faulted cause ∧ unchangedBut [.run, .pc] s t ∧
      t.pc = (if 4096 ≤ s.pc.toNat + 1 then s.pc else s.pc + 2)

/-- A step performs the first pending host operation, which is then no longer pending, and a CYCLE when none is: the
model's own choice of how the host's operations come one after another (log 1). -/
def Obligations.StepPerformsNextOperation : Prop :=
  (∀ (s : State) (op : HostOp) (rest : List HostOp), s.pending = op :: rest → step s = perform op (s.setPending rest)) ∧
  (∀ s : State, s.pending = [] → step s = perform .cycle s) ∧
  (∀ s : State, perform .cycle s = cycle s)

/-- Every step, whatever the state, answers a next state. The spec derives (60_exceptions.md R243, marked [derived])
that every operation defines the next state; that no step therefore ends in the host's fault or refused outcome, the
engine's own faults being next states, is the model's deduction (log 9, DEDUCED). -/
def Obligations.EveryStepAnswersNextState : Prop := ∀ s : State, ∃ t, step s = .next t

/-! ## The host's operations (40_engine_operations.md, 70_reset_and_hazards.md) -/

/-- TICK decrements each timer by one, floored at 0, in every run-state (that it acts in every run-state is the spec's
decision D24), and changes nothing else. -/
def Obligations.TickDecrementsTimers : Prop :=
  ∀ s : State, ∃ t, perform .tick s = .next t ∧
    t.dt.toNat = s.dt.toNat - 1 ∧ t.st.toNat = s.st.toNat - 1 ∧ unchangedBut [.dt, .st] s t

/-- KEY sets the key's slot whatever the run-state; a press while waiting also writes the key's index into the target
register and resumes, and nothing else resolves a wait. That the snapshot is set in every case is the spec's decision
D14. -/
def Obligations.KeySetsSnapshotAndResolvesWait : Prop :=
  ∀ (s : State) (k : Nibble) (pressed : Bool), ∃ t, perform (.key k pressed) s = .next t ∧
    t.keyHeld k = pressed ∧ (∀ j, j ≠ k → t.keyHeld j = s.keyHeld j) ∧ unchangedBut [.keys, .regs, .run] s t ∧
    (∀ r, pressed = true → s.run = .waitingForKeyPress r →
      t.run = .running ∧ (t.reg r).toNat = k.toNat ∧ ∀ z, z ≠ r → t.reg z = s.reg z) ∧
    (pressed = false ∨ (∀ r, s.run ≠ .waitingForKeyPress r) → t.run = s.run ∧ ∀ z, t.reg z = s.reg z)

/-- LOAD writes the program from 0x200, as much of it as fits, and no other byte of memory. -/
def Obligations.LoadCopiesProgramBytes : Prop :=
  ∀ (s : State) (bytes : List Byte), ∃ t, perform (.load bytes) s = .next t ∧
    (∀ k, k < min bytes.length 3584 → t.readByte (0x200 + k) = bytes.getD k 0) ∧
    (∀ a, a < 0x200 ∨ 0x200 + min bytes.length 3584 ≤ a → t.readByte a = s.readByte a)

/-- LOAD sets pc and the run-state in every run-state, clears V, I, the stack, DT and ST iff LOAD_RESETS_CPU (the
spec's decision D17), and leaves the framebuffer and the keys. -/
def Obligations.LoadStartsProgram : Prop :=
  ∀ (s : State) (bytes : List Byte), ∃ t, perform (.load bytes) s = .next t ∧ t.pc = 0x200 ∧ t.run = .running ∧
    unchangedBut [.pc, .run, .mem, .regs, .index, .stack, .dt, .st] s t ∧
    (s.cfg.loadResetsCpu = true → (∀ z, t.reg z = 0) ∧ t.index = 0 ∧ t.stack = [] ∧ t.dt = 0 ∧ t.st = 0) ∧
    (s.cfg.loadResetsCpu = false →
      (∀ z, t.reg z = s.reg z) ∧ t.index = s.index ∧ t.stack = s.stack ∧ t.dt = s.dt ∧ t.st = s.st)

/-- RESET gives every piece of state its reset value from any state. The framebuffer's and the keyboard's are the
spec's decision D18; that the parameters, the pending operations and the random count stay is the model's (log 1 to
3). -/
def Obligations.ResetRestoresEveryPiece : Prop :=
  ∀ s : State, ∃ t, perform .reset s = .next t ∧
    (∀ z, t.reg z = 0) ∧ t.index = 0 ∧ t.pc = 0x200 ∧ t.stack = [] ∧ t.dt = 0 ∧ t.st = 0 ∧ t.run = .notStarted ∧
    (∀ x y, t.pixel x y = false) ∧ t.screenFull ∧ (∀ k, t.keyHeld k = false) ∧
    (∀ (d r : Nat) (hd : d < 16) (hr : r < 5), t.readByte (5 * d + r) = (s.cfg.font[d])[r]) ∧
    (∀ a, 0x50 ≤ a → a < 0x1000 → t.readByte a = 0) ∧
    t.cfg = s.cfg ∧ t.pending = s.pending ∧ t.rndCount = s.rndCount

/-- The state right after reset, for every choice of parameters: every register 0; memory the font, then zeros; I, the
stack and the timers zero or empty, pc 0x200, nothing started (70_reset_and_hazards.md R271, and the rule of 10_state.md
for each piece). That the font is a parameter is the spec's decision D19, and the set of run-states its decision D2. -/
def Obligations.ConstructionGivesResetValues : Prop :=
  ∀ c : Config, (∀ z, (State.construct c).reg z = 0) ∧
    (∀ (d r : Nat) (hd : d < 16) (hr : r < 5), (State.construct c).readByte (5 * d + r) = (c.font[d])[r]) ∧
    (∀ a, 0x50 ≤ a → a < 0x1000 → (State.construct c).readByte a = 0) ∧
    (State.construct c).index = 0 ∧ (State.construct c).pc = 0x200 ∧ (State.construct c).stack = [] ∧
    (State.construct c).dt = 0 ∧ (State.construct c).st = 0 ∧ (State.construct c).run = .notStarted

/-- The machine after reset is built with the default parameters: 32 rows, 16 saved pcs, shifts of Vx, a LOAD that
clears the registers (the spec's decisions D4, D8, D17, D20); and the framebuffer and the keys are clear (D18). -/
def Obligations.ResetUsesDefaultParameters : Prop :=
  State.reset = State.construct defaultConfig ∧ State.reset.rows = 32 ∧ State.reset.cfg.stackDepth = 16 ∧
  State.reset.cfg.shiftUsesVy = false ∧ State.reset.cfg.loadResetsCpu = true ∧
  ∀ c : Config, (State.construct c).screenFull ∧ (∀ x y, (State.construct c).pixel x y = false) ∧
    ∀ k, (State.construct c).keyHeld k = false

/-- RUN(N) is N cycles one after another, and reports the list of their results: no cycle for 0, one cycle and its
result for 1, RUN of a sum is one RUN after the other and its results theirs in order; so each of the N results is that
of its own cycle, a fault or a diagnostic included. Once the engine is not `Running` the rest of the batch changes
nothing and is `Idle`. That N is any natural number is the spec's decision D30, and the results are its decision D29;
that they are functions of the states before and after is the model's choice (log 11). -/
def Obligations.RunIsRepeatedCycles : Prop :=
  (∀ (s : State) (n : Nat), perform (.run n) s = runCycles n s) ∧
  (∀ s, runCycles 0 s = .next s) ∧ (∀ s, runCycles 1 s = cycle s) ∧
  (∀ s t, cycle s = .next t → runResults 1 s = [cycleResult s t]) ∧
  (∀ m n s, ∃ t, runCycles m s = .next t ∧ runCycles (m + n) s = runCycles n t ∧
    runResults (m + n) s = runResults m s ++ runResults n t) ∧
  (∀ n s, s.run ≠ .running → runCycles n s = .next s ∧ runResults n s = List.replicate n .idle) ∧
  (∀ n s, (runResults n s).length = n)

/-! ## Control transfer (41_flow.md) -/

/-- `00EE`: the most recently pushed value into pc; with the stack empty nothing but a diagnostic. -/
def Obligations.ReturnPopsStack : Prop :=
  encodes 0xFFFF#16 0x00EE#16 (fun _ => .ret) ∧
  (∀ (s : State) (a : Word) (rest : List Word), s.stack = a :: rest → ∃ t, exec .ret s = .next t ∧
    t.pc = a ∧ t.stack = rest ∧ unchangedBut [.pc, .stack] s t ∧ diagnosticOf .ret s = none) ∧
  (∀ s : State, s.stack = [] → exec .ret s = .next s ∧ diagnosticOf .ret s = some .emptyStackReturn)

/-- `1nnn`: pc is `nnn` and nothing else changes; a jump to its own address leaves the whole state as it was. -/
def Obligations.JumpSetsPc : Prop :=
  encodes 0xF000#16 0x1000#16 (fun op => .jp (fieldNNN op)) ∧
  (∀ (nnn : Addr) (s : State), ∃ t, exec (.jp nnn) s = .next t ∧ t.pc.toNat = nnn.toNat ∧
    unchangedBut [.pc] s t) ∧
  (∀ s : State, s.atSelfJump → cycle s = .next s)

/-- `2nnn`: pushes the advanced pc and jumps; with STACK_DEPTH values saved it faults and pushes nothing. The bound and
the fault are the spec's decision D4. -/
def Obligations.CallPushesReturnAddress : Prop :=
  encodes 0xF000#16 0x2000#16 (fun op => .call (fieldNNN op)) ∧
  (∀ (nnn : Addr) (s : State), s.depth ≠ s.cfg.stackDepth → ∃ t, exec (.call nnn) s = .next t ∧
    t.stack = s.pc :: s.stack ∧ t.pc.toNat = nnn.toNat ∧ unchangedBut [.pc, .stack] s t) ∧
  (∀ (nnn : Addr) (s : State), s.depth = s.cfg.stackDepth → ∃ t, exec (.call nnn) s = .next t ∧
    t.run = .halted .stackOverflow (s.pc - 2) nnn.toNat ∧ unchangedBut [.run] s t)

/-- `3xnn`, `4xnn`: two more on pc iff Vx equals, differs from, the immediate; nothing else changes. -/
def Obligations.SkipOnImmediate : Prop :=
  encodes 0xF000#16 0x3000#16 (fun op => .seImm (fieldX op) (fieldNN op)) ∧
  encodes 0xF000#16 0x4000#16 (fun op => .sneImm (fieldX op) (fieldNN op)) ∧
  (∀ (x : Nibble) (nn : Byte) (s : State), ∃ t, exec (.seImm x nn) s = .next t ∧
    t.pc = (if s.reg x = nn then s.pc + 2 else s.pc) ∧ unchangedBut [.pc] s t) ∧
  (∀ (x : Nibble) (nn : Byte) (s : State), ∃ t, exec (.sneImm x nn) s = .next t ∧
    t.pc = (if s.reg x = nn then s.pc else s.pc + 2) ∧ unchangedBut [.pc] s t)

/-- `5xy0`, `9xy0`: two more on pc iff Vx equals, differs from, Vy; nothing else changes. -/
def Obligations.SkipOnRegisters : Prop :=
  encodes 0xF00F#16 0x5000#16 (fun op => .seReg (fieldX op) (fieldY op)) ∧
  encodes 0xF00F#16 0x9000#16 (fun op => .sneReg (fieldX op) (fieldY op)) ∧
  (∀ (x y : Nibble) (s : State), ∃ t, exec (.seReg x y) s = .next t ∧
    t.pc = (if s.reg x = s.reg y then s.pc + 2 else s.pc) ∧ unchangedBut [.pc] s t) ∧
  (∀ (x y : Nibble) (s : State), ∃ t, exec (.sneReg x y) s = .next t ∧
    t.pc = (if s.reg x = s.reg y then s.pc else s.pc + 2) ∧ unchangedBut [.pc] s t)

/-- Every word no row of the map selects: its cycle moves pc past it and changes nothing else (41_flow.md R147). The
rule says only that the cycle MAY report the diagnostic; that its result does is the spec's decision D29 and, as a
function of the states before and after, the model's choice (log 11, DESIGN CHOICE). -/
def Obligations.UnlistedWordsAreNoOps : Prop :=
  (∀ (w : Word) (s : State), exec (.nop w) s = .next s ∧ diagnosticOf (.nop w) s = some .unknownOpcodeVariant) ∧
  (∀ s : State, s.run = .running → s.pc.toNat + 1 < 4096 → isListed s.fetchWord = false →
    ∃ t, cycle s = .next t ∧ t.pc = s.pc + 2 ∧ unchangedBut [.pc] s t ∧
      cycleResult s t = .executedWithDiagnostic .unknownOpcodeVariant)

/-! ## Register load and the ALU (42_alu.md) -/

/-- `6xnn`, `8xy0`: Vx is the immediate, Vy; nothing else changes. -/
def Obligations.LoadRegister : Prop :=
  encodes 0xF000#16 0x6000#16 (fun op => .ldImm (fieldX op) (fieldNN op)) ∧
  encodes 0xF00F#16 0x8000#16 (fun op => .ldReg (fieldX op) (fieldY op)) ∧
  (∀ (x : Nibble) (nn : Byte) (s : State), ∃ t, exec (.ldImm x nn) s = .next t ∧ t.reg x = nn ∧
    (∀ z, z ≠ x → t.reg z = s.reg z) ∧ unchangedBut [.regs] s t) ∧
  (∀ (x y : Nibble) (s : State), ∃ t, exec (.ldReg x y) s = .next t ∧ t.reg x = s.reg y ∧
    (∀ z, z ≠ x → t.reg z = s.reg z) ∧ unchangedBut [.regs] s t)

/-- `7xnn`: the sum modulo 256, no flag. -/
def Obligations.AddImmediateWraps : Prop :=
  encodes 0xF000#16 0x7000#16 (fun op => .addImm (fieldX op) (fieldNN op)) ∧
  (∀ (x : Nibble) (nn : Byte) (s : State), ∃ t, exec (.addImm x nn) s = .next t ∧
    (t.reg x).toNat = ((s.reg x).toNat + nn.toNat) % 256 ∧
    (∀ z, z ≠ x → t.reg z = s.reg z) ∧ unchangedBut [.regs] s t)

/-- `8xy1`, `8xy2`, `8xy3`: each bit of Vx is the OR, AND, XOR of the operands' bits; VF is not touched unless it is
Vx (that an effect the table does not list does not happen is the spec's decision D9). -/
def Obligations.LogicOperationsAreBitwise : Prop :=
  encodes 0xF00F#16 0x8001#16 (fun op => .orReg (fieldX op) (fieldY op)) ∧
  encodes 0xF00F#16 0x8002#16 (fun op => .andReg (fieldX op) (fieldY op)) ∧
  encodes 0xF00F#16 0x8003#16 (fun op => .xorReg (fieldX op) (fieldY op)) ∧
  (∀ (x y : Nibble) (s : State), ∃ t, exec (.orReg x y) s = .next t ∧
    (∀ i, (t.reg x).getLsbD i = ((s.reg x).getLsbD i || (s.reg y).getLsbD i)) ∧
    (∀ z, z ≠ x → t.reg z = s.reg z) ∧ unchangedBut [.regs] s t) ∧
  (∀ (x y : Nibble) (s : State), ∃ t, exec (.andReg x y) s = .next t ∧
    (∀ i, (t.reg x).getLsbD i = ((s.reg x).getLsbD i && (s.reg y).getLsbD i)) ∧
    (∀ z, z ≠ x → t.reg z = s.reg z) ∧ unchangedBut [.regs] s t) ∧
  (∀ (x y : Nibble) (s : State), ∃ t, exec (.xorReg x y) s = .next t ∧
    (∀ i, (t.reg x).getLsbD i = ((s.reg x).getLsbD i ^^ (s.reg y).getLsbD i)) ∧
    (∀ z, z ≠ x → t.reg z = s.reg z) ∧ unchangedBut [.regs] s t)

/-- `8xy4`: the sum modulo 256 in Vx, VF the carry; in VF the carry wins over the sum. -/
def Obligations.AddSetsCarry : Prop :=
  encodes 0xF00F#16 0x8004#16 (fun op => .addReg (fieldX op) (fieldY op)) ∧
  (∀ (x y : Nibble) (s : State), ∃ t, exec (.addReg x y) s = .next t ∧
    t.reg 0xF#4 = (if 255 < (s.reg x).toNat + (s.reg y).toNat then 1 else 0) ∧
    (x ≠ 0xF#4 → (t.reg x).toNat = ((s.reg x).toNat + (s.reg y).toNat) % 256) ∧
    (∀ z, z ≠ x → z ≠ 0xF#4 → t.reg z = s.reg z) ∧ unchangedBut [.regs] s t)

/-- `8xy5`, `8xy7`: Vx - Vy, Vy - Vx, modulo 256 in Vx; VF is 1 iff there is no borrow, and wins over the difference. -/
def Obligations.SubtractSetsNotBorrow : Prop :=
  encodes 0xF00F#16 0x8005#16 (fun op => .subReg (fieldX op) (fieldY op)) ∧
  encodes 0xF00F#16 0x8007#16 (fun op => .subn (fieldX op) (fieldY op)) ∧
  (∀ (x y : Nibble) (s : State), ∃ t, exec (.subReg x y) s = .next t ∧
    t.reg 0xF#4 = (if (s.reg y).toNat ≤ (s.reg x).toNat then 1 else 0) ∧
    (x ≠ 0xF#4 → (t.reg x).toNat = (256 + (s.reg x).toNat - (s.reg y).toNat) % 256) ∧
    (∀ z, z ≠ x → z ≠ 0xF#4 → t.reg z = s.reg z) ∧ unchangedBut [.regs] s t) ∧
  (∀ (x y : Nibble) (s : State), ∃ t, exec (.subn x y) s = .next t ∧
    t.reg 0xF#4 = (if (s.reg x).toNat ≤ (s.reg y).toNat then 1 else 0) ∧
    (x ≠ 0xF#4 → (t.reg x).toNat = (256 + (s.reg y).toNat - (s.reg x).toNat) % 256) ∧
    (∀ z, z ≠ x → z ≠ 0xF#4 → t.reg z = s.reg z) ∧ unchangedBut [.regs] s t)

/-- `8xy6`, `8xyE`: half of, twice (modulo 256), the shifted register in Vx, VF the bit shifted out. The shifted
register is Vx, or Vy when SHIFT_USES_VY: the spec's decision D8. -/
def Obligations.ShiftsMoveBitIntoVF : Prop :=
  encodes 0xF00F#16 0x8006#16 (fun op => .shr (fieldX op) (fieldY op)) ∧
  encodes 0xF00F#16 0x800E#16 (fun op => .shl (fieldX op) (fieldY op)) ∧
  (∀ (x y : Nibble) (s : State) (a : Byte), a = (if s.cfg.shiftUsesVy = true then s.reg y else s.reg x) →
    ∃ t, exec (.shr x y) s = .next t ∧ (t.reg 0xF#4).toNat = a.toNat % 2 ∧
      (x ≠ 0xF#4 → (t.reg x).toNat = a.toNat / 2) ∧
      (∀ z, z ≠ x → z ≠ 0xF#4 → t.reg z = s.reg z) ∧ unchangedBut [.regs] s t) ∧
  (∀ (x y : Nibble) (s : State) (a : Byte), a = (if s.cfg.shiftUsesVy = true then s.reg y else s.reg x) →
    ∃ t, exec (.shl x y) s = .next t ∧ (t.reg 0xF#4).toNat = a.toNat / 128 ∧
      (x ≠ 0xF#4 → (t.reg x).toNat = (a.toNat * 2) % 256) ∧
      (∀ z, z ≠ x → z ≠ 0xF#4 → t.reg z = s.reg z) ∧ unchangedBut [.regs] s t)

/-! ## Index register and memory (43_index_memory.md) -/

/-- `Annn`, `Bnnn`: I is `nnn`, `nnn + V0` (never wrapping); nothing else changes, pc included. -/
def Obligations.LoadIndex : Prop :=
  encodes 0xF000#16 0xA000#16 (fun op => .ldI (fieldNNN op)) ∧
  encodes 0xF000#16 0xB000#16 (fun op => .ldIV0 (fieldNNN op)) ∧
  (∀ (nnn : Addr) (s : State), ∃ t, exec (.ldI nnn) s = .next t ∧ t.index.toNat = nnn.toNat ∧
    unchangedBut [.index] s t) ∧
  (∀ (nnn : Addr) (s : State), ∃ t, exec (.ldIV0 nnn) s = .next t ∧
    t.index.toNat = nnn.toNat + (s.reg 0x0#4).toNat ∧ unchangedBut [.index] s t)

/-- `Fx1E`: I + Vx modulo 65536 (the spec's decision D6), VF untouched (D9). -/
def Obligations.AddToIndexWraps : Prop :=
  encodes 0xF0FF#16 0xF01E#16 (fun op => .addI (fieldX op)) ∧
  (∀ (x : Nibble) (s : State), ∃ t, exec (.addI x) s = .next t ∧
    t.index.toNat = (s.index.toNat + (s.reg x).toNat) % 65536 ∧ unchangedBut [.index] s t)

/-- `Fx29`: I is Vx * 5, the whole byte. -/
def Obligations.FontAddressIsFiveTimesVx : Prop :=
  encodes 0xF0FF#16 0xF029#16 (fun op => .ldF (fieldX op)) ∧
  (∀ (x : Nibble) (s : State), ∃ t, exec (.ldF x) s = .next t ∧ t.index.toNat = (s.reg x).toNat * 5 ∧
    unchangedBut [.index] s t)

/-- `Fx33`: the three decimal digits of Vx at I, hundreds first, every other byte as before; or the fault with no byte
written when a digit's address is 4096 or more (checked first: the spec's decision D5). -/
def Obligations.StoreDecimalDigits : Prop :=
  encodes 0xF0FF#16 0xF033#16 (fun op => .ldB (fieldX op)) ∧
  (∀ (x : Nibble) (s : State), s.base + 2 < 4096 → ∃ t, exec (.ldB x) s = .next t ∧
    (t.readByte s.base).toNat = (s.reg x).toNat / 100 ∧
    (t.readByte (s.base + 1)).toNat = (s.reg x).toNat / 10 % 10 ∧
    (t.readByte (s.base + 2)).toNat = (s.reg x).toNat % 10 ∧
    (∀ a, a < s.base ∨ s.base + 3 ≤ a → t.readByte a = s.readByte a) ∧ unchangedBut [.mem] s t) ∧
  (∀ (x : Nibble) (s : State), 4096 ≤ s.base + 2 → ∃ t, exec (.ldB x) s = .next t ∧
    t.run = .halted .outOfBoundsMemoryAccess (s.pc - 2) (max s.base 4096) ∧ unchangedBut [.run] s t)

/-- `Fx55`: V0..Vx at I upward, every other byte as before, I unchanged (D9); or the fault with no byte written when
the last address is 4096 or more (checked first: D5). -/
def Obligations.StoreRegisterBlock : Prop :=
  encodes 0xF0FF#16 0xF055#16 (fun op => .storeRegs (fieldX op)) ∧
  (∀ (x : Nibble) (s : State), s.base + x.toNat < 4096 → ∃ t, exec (.storeRegs x) s = .next t ∧
    (∀ z : Nibble, z.toNat ≤ x.toNat → t.readByte (s.base + z.toNat) = s.reg z) ∧
    (∀ a, a < s.base ∨ s.base + x.toNat < a → t.readByte a = s.readByte a) ∧ unchangedBut [.mem] s t) ∧
  (∀ (x : Nibble) (s : State), 4096 ≤ s.base + x.toNat → ∃ t, exec (.storeRegs x) s = .next t ∧
    t.run = .halted .outOfBoundsMemoryAccess (s.pc - 2) (max s.base 4096) ∧ unchangedBut [.run] s t)

/-- `Fx65`: V0..Vx from I upward, the registers above x as before, I unchanged (D9); or the fault with no register
written when the last address is 4096 or more (checked first: D5). -/
def Obligations.LoadRegisterBlock : Prop :=
  encodes 0xF0FF#16 0xF065#16 (fun op => .loadRegs (fieldX op)) ∧
  (∀ (x : Nibble) (s : State), s.base + x.toNat < 4096 → ∃ t, exec (.loadRegs x) s = .next t ∧
    (∀ z : Nibble, z.toNat ≤ x.toNat → t.reg z = s.readByte (s.base + z.toNat)) ∧
    (∀ z : Nibble, x.toNat < z.toNat → t.reg z = s.reg z) ∧ unchangedBut [.regs] s t) ∧
  (∀ (x : Nibble) (s : State), 4096 ≤ s.base + x.toNat → ∃ t, exec (.loadRegs x) s = .next t ∧
    t.run = .halted .outOfBoundsMemoryAccess (s.pc - 2) (max s.base 4096) ∧ unchangedBut [.run] s t)

/-- `Fx55`, then any changes that leave memory and I, then `Fx65` with the same x: V0..Vx are as they were stored. -/
def Obligations.StoreThenLoadRoundTrips : Prop :=
  ∀ (x : Nibble) (s u : State), s.base + x.toNat < 4096 →
    ∃ t, exec (.storeRegs x) s = .next t ∧
      ((∀ a, u.readByte a = t.readByte a) → u.index = t.index →
        ∃ w, exec (.loadRegs x) u = .next w ∧ ∀ z : Nibble, z.toNat ≤ x.toNat → w.reg z = s.reg z)

/-- A fetch sees what `Fx55` stored at once: a word stored at `I + k` is the word fetched there (stores visible to
the next fetch: the spec's decision D23). -/
def Obligations.FetchSeesStoredBytes : Prop :=
  ∀ (x k : Nibble) (s : State) (a : Word), s.base + x.toNat < 4096 → k.toNat + 1 ≤ x.toNat →
    a.toNat = s.base + k.toNat →
    ∃ t, exec (.storeRegs x) s = .next t ∧ (t.setPc a).fetchWord = wordOfBytes (s.reg k) (s.reg (k + 1))

/-! ## Display (44_display.md) -/

/-- `00E0`: every cell 0, VF and everything else unchanged. -/
def Obligations.ClearScreenZeroesEveryCell : Prop :=
  encodes 0xFFFF#16 0x00E0#16 (fun _ => .cls) ∧
  (∀ s : State, ∃ t, exec .cls s = .next t ∧ t.screenFull ∧ (∀ x y, t.pixel x y = false) ∧
    unchangedBut [.screen] s t)

/-- `set_pixel` and `is_offscreen`: the coordinates wrap, the cell is XORed with 1 and no other changes, and the answer
is whether it went from 1 to 0; a coordinate is off the screen iff it is COLS or ROWS or more, unwrapped. -/
def Obligations.SetPixelTogglesOneCell : Prop :=
  (∀ (rows : Nat) (fb : List (List Bool)) (x y : Nat), 0 < rows → gridFull rows fb →
    gridFull rows (setPixel rows fb x y).1 ∧
    (setPixel rows fb x y).2 = cellAt fb (x % 64) (y % rows) ∧
    cellAt (setPixel rows fb x y).1 (x % 64) (y % rows) = !cellAt fb (x % 64) (y % rows) ∧
    ∀ px py, ¬(px = x % 64 ∧ py = y % rows) → cellAt (setPixel rows fb x y).1 px py = cellAt fb px py) ∧
  (∀ rows x y : Nat, isOffscreen rows x y = true ↔ 64 ≤ x ∨ rows ≤ y)

/-- `Dxyn`: a cell of the screen changes iff a set bit of the sprite covers it, VF is 1 iff one of those was set and
else 0, and nothing else changes; with n > 0 and a sprite byte at 4096 or above, the fault and nothing drawn. Bit 7
leftmost, the check of all n bytes first and VF last are the spec's decisions D10, D11, D12. -/
def Obligations.DrawSpriteXorsAndReportsCollision : Prop :=
  encodes 0xF000#16 0xD000#16 (fun op => .drw (fieldX op) (fieldY op) (fieldN op)) ∧
  (∀ (x y n : Nibble) (s : State), s.screenFull → n = 0 ∨ s.base + n.toNat - 1 < 4096 →
    ∃ t, exec (.drw x y n) s = .next t ∧ t.screenFull ∧
      (∀ px py, px < 64 → py < s.rows →
        (t.pixel px py = true ↔ ¬(s.pixel px py = true ↔ s.spriteCovers x y n px py))) ∧
      (s.spriteHits x y n true → t.reg 0xF#4 = 1) ∧ (¬ s.spriteHits x y n true → t.reg 0xF#4 = 0) ∧
      (∀ z, z ≠ 0xF#4 → t.reg z = s.reg z) ∧ unchangedBut [.screen, .regs] s t) ∧
  (∀ (x y n : Nibble) (s : State), n ≠ 0 → 4096 ≤ s.base + n.toNat - 1 → ∃ t, exec (.drw x y n) s = .next t ∧
    t.run = .halted .outOfBoundsMemoryAccess (s.pc - 2) (max s.base 4096) ∧ unchangedBut [.run] s t)

/-- Drawing the same sprite twice at the same position restores the framebuffer; the first draw collides iff a drawn
cell was set, the second iff a drawn cell was clear before the first. x and y are not VF, which the first draw may
change and so move the second. Inferred by the spec from its rules (44_display.md section 3). -/
def Obligations.DrawTwiceRestoresScreen : Prop :=
  ∀ (x y n : Nibble) (s : State), s.screenFull → n = 0 ∨ s.base + n.toNat - 1 < 4096 → x ≠ 0xF#4 → y ≠ 0xF#4 →
    ∃ t u, exec (.drw x y n) s = .next t ∧ exec (.drw x y n) t = .next u ∧
      (∀ px py, px < 64 → py < s.rows → u.pixel px py = s.pixel px py) ∧
      (t.reg 0xF#4 = 1 ↔ s.spriteHits x y n true) ∧ (u.reg 0xF#4 = 1 ↔ s.spriteHits x y n false)

/-- The framebuffer read-out is row-major, COLS * ROWS bytes, each 0 or 1: byte `y * COLS + x` is cell `(x, y)`. The
display sizes are the spec's decision D20. -/
def Obligations.FramebufferReadOutIsRowMajor : Prop :=
  ∀ s : State, s.screenFull → s.framebufferOut.length = 64 * s.rows ∧
    (∀ b ∈ s.framebufferOut, b = 0 ∨ b = 1) ∧
    ∀ x y, x < 64 → y < s.rows → s.framebufferOut.getD (y * 64 + x) 0 = (if s.pixel x y = true then 1 else 0)

/-! ## Random, keyboard, timers (45_io_timers.md) -/

/-- `Cxnn`: the next free byte under the mask, whatever that byte is, and the old Vx takes no part; the byte is used
up. A free input under no law is the spec's decision D15; that it is counted is the model's (log 3). -/
def Obligations.RandomByteIsMasked : Prop :=
  encodes 0xF000#16 0xC000#16 (fun op => .rnd (fieldX op) (fieldNN op)) ∧
  (∀ (x : Nibble) (nn : Byte) (s : State), ∃ t, exec (.rnd x nn) s = .next t ∧
    t.reg x = Config.randomByte s.rndCount &&& nn ∧ t.reg x &&& ~~~nn = 0 ∧ t.rndCount = s.rndCount + 1 ∧
    (∀ z, z ≠ x → t.reg z = s.reg z) ∧ unchangedBut [.regs, .random] s t)

/-- `Ex9E`, `ExA1`: two more on pc iff the key Vx names is held, not held; the fault for Vx above 15, which is the
spec's decision D13. -/
def Obligations.SkipOnKeyState : Prop :=
  encodes 0xF0FF#16 0xE09E#16 (fun op => .skp (fieldX op)) ∧
  encodes 0xF0FF#16 0xE0A1#16 (fun op => .sknp (fieldX op)) ∧
  (∀ (x k : Nibble) (s : State), (s.reg x).toNat = k.toNat →
    (∃ t, exec (.skp x) s = .next t ∧ t.pc = (if s.keyHeld k = true then s.pc + 2 else s.pc) ∧
      unchangedBut [.pc] s t) ∧
    (∃ t, exec (.sknp x) s = .next t ∧ t.pc = (if s.keyHeld k = true then s.pc else s.pc + 2) ∧
      unchangedBut [.pc] s t)) ∧
  (∀ (x : Nibble) (s : State), 15 < (s.reg x).toNat →
    (∃ t, exec (.skp x) s = .next t ∧ t.run = .halted .invalidKeyIndex (s.pc - 2) (s.reg x).toNat ∧
      unchangedBut [.run] s t) ∧
    (∃ t, exec (.sknp x) s = .next t ∧ t.run = .halted .invalidKeyIndex (s.pc - 2) (s.reg x).toNat ∧
      unchangedBut [.run] s t))

/-- `Fx07`, `Fx15`, `Fx18`: Vx is DT, DT is Vx, ST is Vx; nothing else changes; the sound output is whether ST is
above 0 (45_io_timers.md R213, R215, R216). That no instruction reads ST back, which R216 says too, is
`NoInstructionReadsSoundTimer`. -/
def Obligations.TimerMoves : Prop :=
  encodes 0xF0FF#16 0xF007#16 (fun op => .ldVxDT (fieldX op)) ∧
  encodes 0xF0FF#16 0xF015#16 (fun op => .ldDTVx (fieldX op)) ∧
  encodes 0xF0FF#16 0xF018#16 (fun op => .ldSTVx (fieldX op)) ∧
  (∀ (x : Nibble) (s : State), ∃ t, exec (.ldVxDT x) s = .next t ∧ t.reg x = s.dt ∧
    (∀ z, z ≠ x → t.reg z = s.reg z) ∧ unchangedBut [.regs] s t) ∧
  (∀ (x : Nibble) (s : State), ∃ t, exec (.ldDTVx x) s = .next t ∧ t.dt = s.reg x ∧ unchangedBut [.dt] s t) ∧
  (∀ (x : Nibble) (s : State), ∃ t, exec (.ldSTVx x) s = .next t ∧ t.st = s.reg x ∧
    (t.soundActive = true ↔ 0 < (s.reg x).toNat) ∧ unchangedBut [.st] s t)

/-- `Fx0A`: the engine waits, Vx not yet written and pc left past the instruction; while it waits cycles do nothing
and TICK counts the timers down; a press writes the key's index into Vx and resumes; and no operation but a press, LOAD
and RESET ends the wait. -/
def Obligations.WaitForKeyPress : Prop :=
  encodes 0xF0FF#16 0xF00A#16 (fun op => .ldVxK (fieldX op)) ∧
  (∀ (x : Nibble) (s : State), ∃ t, exec (.ldVxK x) s = .next t ∧ t.run = .waitingForKeyPress x ∧
    unchangedBut [.run] s t) ∧
  (∀ (x : Nibble) (s : State), s.run = .waitingForKeyPress x →
    cycle s = .next s ∧
    (∃ t, perform .tick s = .next t ∧ t.run = .waitingForKeyPress x ∧
      t.dt.toNat = s.dt.toNat - 1 ∧ t.st.toNat = s.st.toNat - 1) ∧
    (∀ k, ∃ t, perform (.key k true) s = .next t ∧ t.run = .running ∧ t.pc = s.pc ∧
      (t.reg x).toNat = k.toNat ∧ ∀ z, z ≠ x → t.reg z = s.reg z) ∧
    (∀ op t, perform op s = .next t → t.run ≠ s.run →
      op = .reset ∨ (∃ bytes, op = .load bytes) ∨ ∃ k, op = .key k true))

/-! ## Rules of the whole machine -/

/-- A register changes only by an instruction that names it as its destination, by a flag write to VF, or by `Fx65`
with x at or above it. -/
def Obligations.RegistersChangeOnlyByTheirWriters : Prop :=
  ∀ (i : Instr) (s t : State) (z : Nibble), exec i s = .next t → t.reg z ≠ s.reg z →
    destination i = some z ∨ (writesFlag i = true ∧ z = 0xF#4) ∨ ∃ x : Nibble, i = .loadRegs x ∧ z.toNat ≤ x.toNat

/-- An instruction that writes VF as a flag and does not fault leaves VF 0 or 1. -/
def Obligations.FlagWritersLeaveZeroOrOne : Prop :=
  ∀ (i : Instr) (s t : State), writesFlag i = true → s.run = .running → exec i s = .next t → t.run = .running →
    t.reg 0xF#4 = 0 ∨ t.reg 0xF#4 = 1

/-- Of the INSTRUCTIONS only `Fx33` and `Fx55` change a byte of memory, and only inside the bytes they store. It says
nothing of the host's LOAD and RESET, which change memory too. -/
def Obligations.InstructionsChangeMemoryOnlyByStores : Prop :=
  ∀ (i : Instr) (s t : State) (a : Nat), exec i s = .next t → t.readByte a ≠ s.readByte a →
    (∃ x, i = .ldB x ∧ s.base ≤ a ∧ a < s.base + 3) ∨
    (∃ x : Nibble, i = .storeRegs x ∧ s.base ≤ a ∧ a ≤ s.base + x.toNat)

/-- Which instructions can change I, pc, the stack, the timers, the framebuffer, the run-state; none changes a key or
a parameter. -/
def Obligations.ControlStateChangesOnlyByItsWriters : Prop :=
  ∀ (i : Instr) (s t : State), exec i s = .next t →
    (t.index ≠ s.index →
      (∃ nnn, i = .ldI nnn) ∨ (∃ nnn, i = .ldIV0 nnn) ∨ (∃ x, i = .addI x) ∨ ∃ x, i = .ldF x) ∧
    (t.pc ≠ s.pc →
      i = .ret ∨ (∃ nnn, i = .jp nnn) ∨ (∃ nnn, i = .call nnn) ∨
      ((t.pc = s.pc + 2) ∧ ((∃ x nn, i = .seImm x nn) ∨ (∃ x nn, i = .sneImm x nn) ∨ (∃ x y, i = .seReg x y) ∨
        (∃ x y, i = .sneReg x y) ∨ (∃ x, i = .skp x) ∨ ∃ x, i = .sknp x))) ∧
    (t.stack ≠ s.stack → i = .ret ∨ ∃ nnn, i = .call nnn) ∧
    (t.dt ≠ s.dt → ∃ x, i = .ldDTVx x) ∧ (t.st ≠ s.st → ∃ x, i = .ldSTVx x) ∧
    (t.fb ≠ s.fb → i = .cls ∨ ∃ x y n, i = .drw x y n) ∧
    (t.run ≠ s.run → t.isHalted ∨ ∃ x, i = .ldVxK x ∧ t.run = .waitingForKeyPress x) ∧
    t.key = s.key ∧ t.cfg = s.cfg ∧ t.pending = s.pending

/-- The run-state's transitions: a step that leaves `Halted` performs LOAD or RESET; one that leaves a wait performs
LOAD, RESET or a press; none enters `Paused` (the spec's decision D3); a cycle changes the run-state only from
`Running`, to a fault or to the wait of `Fx0A`. -/
def Obligations.RunStateTransitions : Prop :=
  ∀ s t : State, step s = .next t →
    (s.isHalted → t.run ≠ s.run → ∃ rest, (∃ bytes, s.pending = .load bytes :: rest) ∨ s.pending = .reset :: rest) ∧
    (∀ x, s.run = .waitingForKeyPress x → t.run ≠ s.run →
      ∃ rest, (∃ bytes, s.pending = .load bytes :: rest) ∨ s.pending = .reset :: rest ∨
        ∃ k, s.pending = .key k true :: rest) ∧
    (t.run = .paused → s.run = .paused) ∧
    (s.pending = [] → t.run ≠ s.run → s.run = .running ∧
      (t.isHalted ∨ ∃ x, decode s.fetchWord = .ldVxK x ∧ t.run = .waitingForKeyPress x))

/-- No instruction reads ST (10_state.md R34): two states that differ only in ST take every instruction to states that
differ only in ST, and `Fx18` to the same state. It is about `exec` alone: the guard and the fetch of CYCLE, KEY, LOAD,
TICK and the sound read-out are not in it. It compares two executions, and for `Cxnn` it rests on both taking the same
free byte, the one the equal counters name: the model's choice (log 3, DESIGN CHOICE), which log 3 calls unsafe for a
claim that compares two runs, since the spec's free byte may differ between them. -/
def Obligations.NoInstructionReadsSoundTimer : Prop :=
  ∀ (i : Instr) (s : State) (b : Byte), ∃ t t', exec i s = .next t ∧ exec i (s.setSt b) = .next t' ∧
    (t' = t.setSt b ∨ (t' = t ∧ ∃ x, i = .ldSTVx x))

/-- No step changes the parameters the engine was built with. The spec derives (10_state.md R36, marked [derived]) that
they are fixed when the engine is built and are no state; that the model holds them in a field of State, which no step
changes, RESET included, is its own choice (log 2, DESIGN CHOICE). -/
def Obligations.ParametersNeverChange : Prop := ∀ s t : State, step s = .next t → t.cfg = s.cfg

/-- The canonical form of memory is unique: two memories in it that read the same everywhere are the same data. The
form is the model's own (log 5). -/
def Obligations.CanonicalMemoryIsUnique : Prop :=
  ∀ (c : Config) (m m' : Memory), Memory.wf c m = true → Memory.wf c m' = true →
    (∀ a, Memory.read c m a = Memory.read c m' a) → m = m'

/-- The invariant holds right after reset, whatever the parameters. Its clause that memory is in canonical form is about
the model's own form (log 5, DESIGN CHOICE). -/
def Obligations.InvariantHoldsAtReset : Prop :=
  State.reset.Inv ∧ ∀ c : Config, (State.construct c).Inv

/-- Every step, whatever operation it performs, keeps the invariant: memory in canonical form and below 4096, a full
framebuffer, pc at most 0x1002, at most STACK_DEPTH saved values, each at most 0x1000. -/
def Obligations.EveryStepKeepsInvariant : Prop := ∀ s t : State, s.Inv → step s = .next t → t.Inv
end

