-- ==== Sys2Proof/Laws/Decode.lean ====
section
/-! SUPPORT. The fields of a word: of a concatenation, back into the word, and under the masks of the opcode map. -/
namespace Sys2Proof

/-! ## Fields of a concatenation -/

@[simp] theorem fieldTop_nibbles (t x y n : Nibble) : fieldTop (t ++ x ++ y ++ n) = t := by
  apply BitVec.eq_of_getLsbD_eq; intro i hi
  simp only [fieldTop, BitVec.getLsbD_extractLsb', BitVec.getLsbD_append]
  have : i < 4 := hi
  simp [this, show ¬ 12 + i < 4 by omega, show ¬ 12 + i - 4 < 4 by omega, show ¬ 12 + i - 4 - 4 < 4 by omega,
    show 12 + i - 4 - 4 - 4 = i by omega]

@[simp] theorem fieldX_nibbles (t x y n : Nibble) : fieldX (t ++ x ++ y ++ n) = x := by
  apply BitVec.eq_of_getLsbD_eq; intro i hi
  simp only [fieldX, BitVec.getLsbD_extractLsb', BitVec.getLsbD_append]
  have : i < 4 := hi
  simp [this, show ¬ 8 + i < 4 by omega, show ¬ 8 + i - 4 < 4 by omega,
    show 8 + i - 4 - 4 = i by omega]

@[simp] theorem fieldY_nibbles (t x y n : Nibble) : fieldY (t ++ x ++ y ++ n) = y := by
  apply BitVec.eq_of_getLsbD_eq; intro i hi
  simp only [fieldY, BitVec.getLsbD_extractLsb', BitVec.getLsbD_append]
  have : i < 4 := hi
  simp [this, show ¬ 4 + i < 4 by omega]

@[simp] theorem fieldN_nibbles (t x y n : Nibble) : fieldN (t ++ x ++ y ++ n) = n := by
  apply BitVec.eq_of_getLsbD_eq; intro i hi
  simp only [fieldN, BitVec.getLsbD_extractLsb', BitVec.getLsbD_append]
  have : i < 4 := hi
  simp [this]

@[simp] theorem fieldTop_byte (t x : Nibble) (nn : Byte) : fieldTop (t ++ x ++ nn) = t := by
  apply BitVec.eq_of_getLsbD_eq; intro i hi
  simp only [fieldTop, BitVec.getLsbD_extractLsb', BitVec.getLsbD_append]
  have : i < 4 := hi
  simp [this, show ¬ 12 + i < 8 by omega, show ¬ 12 + i - 8 < 4 by omega, show 12 + i - 8 - 4 = i by omega]

@[simp] theorem fieldX_byte (t x : Nibble) (nn : Byte) : fieldX (t ++ x ++ nn) = x := by
  apply BitVec.eq_of_getLsbD_eq; intro i hi
  simp only [fieldX, BitVec.getLsbD_extractLsb', BitVec.getLsbD_append]
  have : i < 4 := hi
  simp [this, show ¬ 8 + i < 8 by omega]

@[simp] theorem fieldNN_byte (t x : Nibble) (nn : Byte) : fieldNN (t ++ x ++ nn) = nn := by
  apply BitVec.eq_of_getLsbD_eq; intro i hi
  simp only [fieldNN, BitVec.getLsbD_extractLsb', BitVec.getLsbD_append]
  have : i < 8 := hi
  simp [this]

@[simp] theorem fieldTop_addr (t : Nibble) (nnn : Addr) : fieldTop (t ++ nnn) = t := by
  apply BitVec.eq_of_getLsbD_eq; intro i hi
  simp only [fieldTop, BitVec.getLsbD_extractLsb', BitVec.getLsbD_append]
  have : i < 4 := hi
  simp [this, show ¬ 12 + i < 12 by omega]

@[simp] theorem fieldNNN_addr (t : Nibble) (nnn : Addr) : fieldNNN (t ++ nnn) = nnn := by
  apply BitVec.eq_of_getLsbD_eq; intro i hi
  simp only [fieldNNN, BitVec.getLsbD_extractLsb', BitVec.getLsbD_append]
  have : i < 12 := hi
  simp [this]

/-! ## A word is its fields -/

theorem word_of_nibbles (op : Word) : fieldTop op ++ fieldX op ++ fieldY op ++ fieldN op = op := by
  apply BitVec.eq_of_getLsbD_eq; intro i hi
  simp only [fieldTop, fieldX, fieldY, fieldN, BitVec.getLsbD_extractLsb', BitVec.getLsbD_append]
  by_cases h0 : i < 4
  · simp [h0]
  by_cases h1 : i - 4 < 4
  · simp [h0, h1, show 4 + (i - 4) = i by omega]
  by_cases h2 : i - 4 - 4 < 4
  · simp [h0, h1, h2, show 8 + (i - 4 - 4) = i by omega]
  · simp [h0, h1, h2, show i - 4 - 4 - 4 < 4 by omega, show 12 + (i - 4 - 4 - 4) = i by omega]

theorem word_of_byte (op : Word) : fieldTop op ++ fieldX op ++ fieldNN op = op := by
  apply BitVec.eq_of_getLsbD_eq; intro i hi
  simp only [fieldTop, fieldX, fieldNN, BitVec.getLsbD_extractLsb', BitVec.getLsbD_append]
  by_cases h0 : i < 8
  · simp [h0]
  by_cases h1 : i - 8 < 4
  · simp [h0, h1, show 8 + (i - 8) = i by omega]
  · simp [h0, h1, show i - 8 - 4 < 4 by omega, show 12 + (i - 8 - 4) = i by omega]

theorem word_of_addr (op : Word) : fieldTop op ++ fieldNNN op = op := by
  apply BitVec.eq_of_getLsbD_eq; intro i hi
  simp only [fieldTop, fieldNNN, BitVec.getLsbD_extractLsb', BitVec.getLsbD_append]
  by_cases h0 : i < 12
  · simp [h0]
  · simp [h0, show i - 12 < 4 by omega, show 12 + (i - 12) = i by omega]

/-! ## The masks of the opcode map -/

/-- A word under the mask of formats NNN, XNN and XYN (30_encoding.md R92). -/
theorem mask_top (op : Word) : op &&& 0xF000#16 = fieldTop op ++ 0#12 := by
  conv => lhs; rw [← word_of_addr op]
  rw [show (0xF000#16 : Word) = 0xF#4 ++ 0#12 from by decide, BitVec.and_append,
    show (0xF#4 : Nibble) = BitVec.allOnes 4 from by decide]
  simp only [BitVec.and_allOnes, BitVec.and_zero]

/-- A word under the mask of format XY (30_encoding.md R92). -/
theorem mask_top_n (op : Word) : op &&& 0xF00F#16 = fieldTop op ++ 0#4 ++ 0#4 ++ fieldN op := by
  conv => lhs; rw [← word_of_nibbles op]
  rw [show (0xF00F#16 : Word) = 0xF#4 ++ 0#4 ++ 0#4 ++ 0xF#4 from by decide, BitVec.and_append,
    BitVec.and_append, BitVec.and_append, show (0xF#4 : Nibble) = BitVec.allOnes 4 from by decide]
  simp only [BitVec.and_allOnes, BitVec.and_zero]

/-- A word under the mask of format X (30_encoding.md R92). -/
theorem mask_top_nn (op : Word) : op &&& 0xF0FF#16 = fieldTop op ++ 0#4 ++ fieldNN op := by
  conv => lhs; rw [← word_of_byte op]
  rw [show (0xF0FF#16 : Word) = 0xF#4 ++ 0#4 ++ 0xFF#8 from by decide, BitVec.and_append,
    BitVec.and_append, show (0xF#4 : Nibble) = BitVec.allOnes 4 from by decide,
    show (0xFF#8 : Byte) = BitVec.allOnes 8 from by decide]
  simp only [BitVec.and_allOnes, BitVec.and_zero]

/-- A word under the mask of format FIXED (30_encoding.md R92). -/
theorem mask_all (op : Word) : op &&& 0xFFFF#16 = op := by
  rw [show (0xFFFF#16 : Word) = BitVec.allOnes 16 from by decide]
  simp only [BitVec.and_allOnes]

theorem mask_top_iff (op : Word) (t : Nibble) : op &&& 0xF000#16 = t ++ 0#12 ↔ fieldTop op = t := by
  rw [mask_top]
  exact ⟨fun h => by simpa using congrArg fieldTop h, fun h => by rw [h]⟩

theorem mask_top_n_iff (op : Word) (t n : Nibble) :
    op &&& 0xF00F#16 = t ++ 0#4 ++ 0#4 ++ n ↔ fieldTop op = t ∧ fieldN op = n := by
  rw [mask_top_n]
  exact ⟨fun h => ⟨by simpa using congrArg fieldTop h, by simpa using congrArg fieldN h⟩,
    fun h => by rw [h.1, h.2]⟩

theorem mask_top_nn_iff (op : Word) (t : Nibble) (nn : Byte) :
    op &&& 0xF0FF#16 = t ++ 0#4 ++ nn ↔ fieldTop op = t ∧ fieldNN op = nn := by
  rw [mask_top_nn]
  exact ⟨fun h => ⟨by simpa using congrArg fieldTop h, by simpa using congrArg fieldNN h⟩,
    fun h => by rw [h.1, h.2]⟩

/-! ## Bytes of a word -/

/-- A word stored as memory holds it and fetched again is the word (20_memory.md R62). -/
theorem wordOfBytes_bytesOfWord (op : Word) : wordOfBytes (op.extractLsb' 8 8) (op.extractLsb' 0 8) = op := by
  apply BitVec.eq_of_getLsbD_eq; intro i hi
  simp only [wordOfBytes, BitVec.getLsbD_extractLsb', BitVec.getLsbD_append]
  by_cases h0 : i < 8
  · simp [h0]
  · simp [h0, show i - 8 < 8 by omega, show 8 + (i - 8) = i by omega]

/-- `decodeTableWord` is `decode` of the row's word: every word decodes. -/
theorem decodeTableWord_eq (nbits w : Nat) : decodeTableWord nbits w = some (decode (tableWord nbits w)) := by
  simp [decodeTableWord, bytesOfWord, decodeBytes, wordOfBytes_bytesOfWord]

end Sys2Proof
end

