-- ==== Sys2Proof/Laws/State.lean ====
section
/-! SUPPORT. One lemma per field per update and per read-out per update, so that no proof unfolds a record update. -/
namespace Sys2Proof.Machine

variable (s : State)

/-! ### setReg -/

@[simp] theorem State.setReg_cfg (x : Nibble) (b : Byte) : (s.setReg x b).cfg = s.cfg := rfl
@[simp] theorem State.setReg_mem (x : Nibble) (b : Byte) : (s.setReg x b).mem = s.mem := rfl
@[simp] theorem State.setReg_v (x : Nibble) (b : Byte) : (s.setReg x b).v = s.v.set x.toNat b x.isLt := rfl
@[simp] theorem State.setReg_index (x : Nibble) (b : Byte) : (s.setReg x b).index = s.index := rfl
@[simp] theorem State.setReg_pc (x : Nibble) (b : Byte) : (s.setReg x b).pc = s.pc := rfl
@[simp] theorem State.setReg_stack (x : Nibble) (b : Byte) : (s.setReg x b).stack = s.stack := rfl
@[simp] theorem State.setReg_dt (x : Nibble) (b : Byte) : (s.setReg x b).dt = s.dt := rfl
@[simp] theorem State.setReg_st (x : Nibble) (b : Byte) : (s.setReg x b).st = s.st := rfl
@[simp] theorem State.setReg_fb (x : Nibble) (b : Byte) : (s.setReg x b).fb = s.fb := rfl
@[simp] theorem State.setReg_key (x : Nibble) (b : Byte) : (s.setReg x b).key = s.key := rfl
@[simp] theorem State.setReg_run (x : Nibble) (b : Byte) : (s.setReg x b).run = s.run := rfl
@[simp] theorem State.setReg_pending (x : Nibble) (b : Byte) : (s.setReg x b).pending = s.pending := rfl
@[simp] theorem State.setReg_rndCount (x : Nibble) (b : Byte) : (s.setReg x b).rndCount = s.rndCount := rfl

@[simp] theorem State.setReg_readByte (x : Nibble) (b : Byte) (z : Nat) : (s.setReg x b).readByte z = s.readByte z := rfl
@[simp] theorem State.setReg_pixel (x : Nibble) (b : Byte) (z w : Nat) : (s.setReg x b).pixel z w = s.pixel z w := rfl
@[simp] theorem State.setReg_keyHeld (x : Nibble) (b : Byte) (z : Nibble) : (s.setReg x b).keyHeld z = s.keyHeld z := rfl
@[simp] theorem State.setReg_depth (x : Nibble) (b : Byte) : (s.setReg x b).depth = s.depth := rfl
@[simp] theorem State.setReg_rows (x : Nibble) (b : Byte) : (s.setReg x b).rows = s.rows := rfl

/-! ### setIndex -/

@[simp] theorem State.setIndex_cfg (a : Word) : (s.setIndex a).cfg = s.cfg := rfl
@[simp] theorem State.setIndex_mem (a : Word) : (s.setIndex a).mem = s.mem := rfl
@[simp] theorem State.setIndex_v (a : Word) : (s.setIndex a).v = s.v := rfl
@[simp] theorem State.setIndex_index (a : Word) : (s.setIndex a).index = a := rfl
@[simp] theorem State.setIndex_pc (a : Word) : (s.setIndex a).pc = s.pc := rfl
@[simp] theorem State.setIndex_stack (a : Word) : (s.setIndex a).stack = s.stack := rfl
@[simp] theorem State.setIndex_dt (a : Word) : (s.setIndex a).dt = s.dt := rfl
@[simp] theorem State.setIndex_st (a : Word) : (s.setIndex a).st = s.st := rfl
@[simp] theorem State.setIndex_fb (a : Word) : (s.setIndex a).fb = s.fb := rfl
@[simp] theorem State.setIndex_key (a : Word) : (s.setIndex a).key = s.key := rfl
@[simp] theorem State.setIndex_run (a : Word) : (s.setIndex a).run = s.run := rfl
@[simp] theorem State.setIndex_pending (a : Word) : (s.setIndex a).pending = s.pending := rfl
@[simp] theorem State.setIndex_rndCount (a : Word) : (s.setIndex a).rndCount = s.rndCount := rfl

@[simp] theorem State.setIndex_reg (a : Word) (z : Nibble) : (s.setIndex a).reg z = s.reg z := rfl
@[simp] theorem State.setIndex_readByte (a : Word) (z : Nat) : (s.setIndex a).readByte z = s.readByte z := rfl
@[simp] theorem State.setIndex_pixel (a : Word) (z w : Nat) : (s.setIndex a).pixel z w = s.pixel z w := rfl
@[simp] theorem State.setIndex_keyHeld (a : Word) (z : Nibble) : (s.setIndex a).keyHeld z = s.keyHeld z := rfl
@[simp] theorem State.setIndex_depth (a : Word) : (s.setIndex a).depth = s.depth := rfl
@[simp] theorem State.setIndex_rows (a : Word) : (s.setIndex a).rows = s.rows := rfl

/-! ### setPc -/

@[simp] theorem State.setPc_cfg (a : Word) : (s.setPc a).cfg = s.cfg := rfl
@[simp] theorem State.setPc_mem (a : Word) : (s.setPc a).mem = s.mem := rfl
@[simp] theorem State.setPc_v (a : Word) : (s.setPc a).v = s.v := rfl
@[simp] theorem State.setPc_index (a : Word) : (s.setPc a).index = s.index := rfl
@[simp] theorem State.setPc_pc (a : Word) : (s.setPc a).pc = a := rfl
@[simp] theorem State.setPc_stack (a : Word) : (s.setPc a).stack = s.stack := rfl
@[simp] theorem State.setPc_dt (a : Word) : (s.setPc a).dt = s.dt := rfl
@[simp] theorem State.setPc_st (a : Word) : (s.setPc a).st = s.st := rfl
@[simp] theorem State.setPc_fb (a : Word) : (s.setPc a).fb = s.fb := rfl
@[simp] theorem State.setPc_key (a : Word) : (s.setPc a).key = s.key := rfl
@[simp] theorem State.setPc_run (a : Word) : (s.setPc a).run = s.run := rfl
@[simp] theorem State.setPc_pending (a : Word) : (s.setPc a).pending = s.pending := rfl
@[simp] theorem State.setPc_rndCount (a : Word) : (s.setPc a).rndCount = s.rndCount := rfl

@[simp] theorem State.setPc_reg (a : Word) (z : Nibble) : (s.setPc a).reg z = s.reg z := rfl
@[simp] theorem State.setPc_readByte (a : Word) (z : Nat) : (s.setPc a).readByte z = s.readByte z := rfl
@[simp] theorem State.setPc_pixel (a : Word) (z w : Nat) : (s.setPc a).pixel z w = s.pixel z w := rfl
@[simp] theorem State.setPc_keyHeld (a : Word) (z : Nibble) : (s.setPc a).keyHeld z = s.keyHeld z := rfl
@[simp] theorem State.setPc_depth (a : Word) : (s.setPc a).depth = s.depth := rfl
@[simp] theorem State.setPc_rows (a : Word) : (s.setPc a).rows = s.rows := rfl

/-! ### setStack -/

@[simp] theorem State.setStack_cfg (l : List Word) : (s.setStack l).cfg = s.cfg := rfl
@[simp] theorem State.setStack_mem (l : List Word) : (s.setStack l).mem = s.mem := rfl
@[simp] theorem State.setStack_v (l : List Word) : (s.setStack l).v = s.v := rfl
@[simp] theorem State.setStack_index (l : List Word) : (s.setStack l).index = s.index := rfl
@[simp] theorem State.setStack_pc (l : List Word) : (s.setStack l).pc = s.pc := rfl
@[simp] theorem State.setStack_stack (l : List Word) : (s.setStack l).stack = l := rfl
@[simp] theorem State.setStack_dt (l : List Word) : (s.setStack l).dt = s.dt := rfl
@[simp] theorem State.setStack_st (l : List Word) : (s.setStack l).st = s.st := rfl
@[simp] theorem State.setStack_fb (l : List Word) : (s.setStack l).fb = s.fb := rfl
@[simp] theorem State.setStack_key (l : List Word) : (s.setStack l).key = s.key := rfl
@[simp] theorem State.setStack_run (l : List Word) : (s.setStack l).run = s.run := rfl
@[simp] theorem State.setStack_pending (l : List Word) : (s.setStack l).pending = s.pending := rfl
@[simp] theorem State.setStack_rndCount (l : List Word) : (s.setStack l).rndCount = s.rndCount := rfl

@[simp] theorem State.setStack_reg (l : List Word) (z : Nibble) : (s.setStack l).reg z = s.reg z := rfl
@[simp] theorem State.setStack_readByte (l : List Word) (z : Nat) : (s.setStack l).readByte z = s.readByte z := rfl
@[simp] theorem State.setStack_pixel (l : List Word) (z w : Nat) : (s.setStack l).pixel z w = s.pixel z w := rfl
@[simp] theorem State.setStack_keyHeld (l : List Word) (z : Nibble) : (s.setStack l).keyHeld z = s.keyHeld z := rfl
@[simp] theorem State.setStack_rows (l : List Word) : (s.setStack l).rows = s.rows := rfl

/-! ### setDt -/

@[simp] theorem State.setDt_cfg (b : Byte) : (s.setDt b).cfg = s.cfg := rfl
@[simp] theorem State.setDt_mem (b : Byte) : (s.setDt b).mem = s.mem := rfl
@[simp] theorem State.setDt_v (b : Byte) : (s.setDt b).v = s.v := rfl
@[simp] theorem State.setDt_index (b : Byte) : (s.setDt b).index = s.index := rfl
@[simp] theorem State.setDt_pc (b : Byte) : (s.setDt b).pc = s.pc := rfl
@[simp] theorem State.setDt_stack (b : Byte) : (s.setDt b).stack = s.stack := rfl
@[simp] theorem State.setDt_dt (b : Byte) : (s.setDt b).dt = b := rfl
@[simp] theorem State.setDt_st (b : Byte) : (s.setDt b).st = s.st := rfl
@[simp] theorem State.setDt_fb (b : Byte) : (s.setDt b).fb = s.fb := rfl
@[simp] theorem State.setDt_key (b : Byte) : (s.setDt b).key = s.key := rfl
@[simp] theorem State.setDt_run (b : Byte) : (s.setDt b).run = s.run := rfl
@[simp] theorem State.setDt_pending (b : Byte) : (s.setDt b).pending = s.pending := rfl
@[simp] theorem State.setDt_rndCount (b : Byte) : (s.setDt b).rndCount = s.rndCount := rfl

@[simp] theorem State.setDt_reg (b : Byte) (z : Nibble) : (s.setDt b).reg z = s.reg z := rfl
@[simp] theorem State.setDt_readByte (b : Byte) (z : Nat) : (s.setDt b).readByte z = s.readByte z := rfl
@[simp] theorem State.setDt_pixel (b : Byte) (z w : Nat) : (s.setDt b).pixel z w = s.pixel z w := rfl
@[simp] theorem State.setDt_keyHeld (b : Byte) (z : Nibble) : (s.setDt b).keyHeld z = s.keyHeld z := rfl
@[simp] theorem State.setDt_depth (b : Byte) : (s.setDt b).depth = s.depth := rfl
@[simp] theorem State.setDt_rows (b : Byte) : (s.setDt b).rows = s.rows := rfl

/-! ### setSt -/

@[simp] theorem State.setSt_cfg (b : Byte) : (s.setSt b).cfg = s.cfg := rfl
@[simp] theorem State.setSt_mem (b : Byte) : (s.setSt b).mem = s.mem := rfl
@[simp] theorem State.setSt_v (b : Byte) : (s.setSt b).v = s.v := rfl
@[simp] theorem State.setSt_index (b : Byte) : (s.setSt b).index = s.index := rfl
@[simp] theorem State.setSt_pc (b : Byte) : (s.setSt b).pc = s.pc := rfl
@[simp] theorem State.setSt_stack (b : Byte) : (s.setSt b).stack = s.stack := rfl
@[simp] theorem State.setSt_dt (b : Byte) : (s.setSt b).dt = s.dt := rfl
@[simp] theorem State.setSt_st (b : Byte) : (s.setSt b).st = b := rfl
@[simp] theorem State.setSt_fb (b : Byte) : (s.setSt b).fb = s.fb := rfl
@[simp] theorem State.setSt_key (b : Byte) : (s.setSt b).key = s.key := rfl
@[simp] theorem State.setSt_run (b : Byte) : (s.setSt b).run = s.run := rfl
@[simp] theorem State.setSt_pending (b : Byte) : (s.setSt b).pending = s.pending := rfl
@[simp] theorem State.setSt_rndCount (b : Byte) : (s.setSt b).rndCount = s.rndCount := rfl

@[simp] theorem State.setSt_reg (b : Byte) (z : Nibble) : (s.setSt b).reg z = s.reg z := rfl
@[simp] theorem State.setSt_readByte (b : Byte) (z : Nat) : (s.setSt b).readByte z = s.readByte z := rfl
@[simp] theorem State.setSt_pixel (b : Byte) (z w : Nat) : (s.setSt b).pixel z w = s.pixel z w := rfl
@[simp] theorem State.setSt_keyHeld (b : Byte) (z : Nibble) : (s.setSt b).keyHeld z = s.keyHeld z := rfl
@[simp] theorem State.setSt_depth (b : Byte) : (s.setSt b).depth = s.depth := rfl
@[simp] theorem State.setSt_rows (b : Byte) : (s.setSt b).rows = s.rows := rfl

/-! ### setFb -/

@[simp] theorem State.setFb_cfg (f : List (List Bool)) : (s.setFb f).cfg = s.cfg := rfl
@[simp] theorem State.setFb_mem (f : List (List Bool)) : (s.setFb f).mem = s.mem := rfl
@[simp] theorem State.setFb_v (f : List (List Bool)) : (s.setFb f).v = s.v := rfl
@[simp] theorem State.setFb_index (f : List (List Bool)) : (s.setFb f).index = s.index := rfl
@[simp] theorem State.setFb_pc (f : List (List Bool)) : (s.setFb f).pc = s.pc := rfl
@[simp] theorem State.setFb_stack (f : List (List Bool)) : (s.setFb f).stack = s.stack := rfl
@[simp] theorem State.setFb_dt (f : List (List Bool)) : (s.setFb f).dt = s.dt := rfl
@[simp] theorem State.setFb_st (f : List (List Bool)) : (s.setFb f).st = s.st := rfl
@[simp] theorem State.setFb_fb (f : List (List Bool)) : (s.setFb f).fb = f := rfl
@[simp] theorem State.setFb_key (f : List (List Bool)) : (s.setFb f).key = s.key := rfl
@[simp] theorem State.setFb_run (f : List (List Bool)) : (s.setFb f).run = s.run := rfl
@[simp] theorem State.setFb_pending (f : List (List Bool)) : (s.setFb f).pending = s.pending := rfl
@[simp] theorem State.setFb_rndCount (f : List (List Bool)) : (s.setFb f).rndCount = s.rndCount := rfl

@[simp] theorem State.setFb_reg (f : List (List Bool)) (z : Nibble) : (s.setFb f).reg z = s.reg z := rfl
@[simp] theorem State.setFb_readByte (f : List (List Bool)) (z : Nat) : (s.setFb f).readByte z = s.readByte z := rfl
@[simp] theorem State.setFb_keyHeld (f : List (List Bool)) (z : Nibble) : (s.setFb f).keyHeld z = s.keyHeld z := rfl
@[simp] theorem State.setFb_depth (f : List (List Bool)) : (s.setFb f).depth = s.depth := rfl
@[simp] theorem State.setFb_rows (f : List (List Bool)) : (s.setFb f).rows = s.rows := rfl

/-! ### setMem -/

@[simp] theorem State.setMem_cfg (m : Memory) : (s.setMem m).cfg = s.cfg := rfl
@[simp] theorem State.setMem_mem (m : Memory) : (s.setMem m).mem = m := rfl
@[simp] theorem State.setMem_v (m : Memory) : (s.setMem m).v = s.v := rfl
@[simp] theorem State.setMem_index (m : Memory) : (s.setMem m).index = s.index := rfl
@[simp] theorem State.setMem_pc (m : Memory) : (s.setMem m).pc = s.pc := rfl
@[simp] theorem State.setMem_stack (m : Memory) : (s.setMem m).stack = s.stack := rfl
@[simp] theorem State.setMem_dt (m : Memory) : (s.setMem m).dt = s.dt := rfl
@[simp] theorem State.setMem_st (m : Memory) : (s.setMem m).st = s.st := rfl
@[simp] theorem State.setMem_fb (m : Memory) : (s.setMem m).fb = s.fb := rfl
@[simp] theorem State.setMem_key (m : Memory) : (s.setMem m).key = s.key := rfl
@[simp] theorem State.setMem_run (m : Memory) : (s.setMem m).run = s.run := rfl
@[simp] theorem State.setMem_pending (m : Memory) : (s.setMem m).pending = s.pending := rfl
@[simp] theorem State.setMem_rndCount (m : Memory) : (s.setMem m).rndCount = s.rndCount := rfl

@[simp] theorem State.setMem_reg (m : Memory) (z : Nibble) : (s.setMem m).reg z = s.reg z := rfl
@[simp] theorem State.setMem_pixel (m : Memory) (z w : Nat) : (s.setMem m).pixel z w = s.pixel z w := rfl
@[simp] theorem State.setMem_keyHeld (m : Memory) (z : Nibble) : (s.setMem m).keyHeld z = s.keyHeld z := rfl
@[simp] theorem State.setMem_depth (m : Memory) : (s.setMem m).depth = s.depth := rfl
@[simp] theorem State.setMem_rows (m : Memory) : (s.setMem m).rows = s.rows := rfl

/-! ### setKey -/

@[simp] theorem State.setKey_cfg (k : Nibble) (b : Bool) : (s.setKey k b).cfg = s.cfg := rfl
@[simp] theorem State.setKey_mem (k : Nibble) (b : Bool) : (s.setKey k b).mem = s.mem := rfl
@[simp] theorem State.setKey_v (k : Nibble) (b : Bool) : (s.setKey k b).v = s.v := rfl
@[simp] theorem State.setKey_index (k : Nibble) (b : Bool) : (s.setKey k b).index = s.index := rfl
@[simp] theorem State.setKey_pc (k : Nibble) (b : Bool) : (s.setKey k b).pc = s.pc := rfl
@[simp] theorem State.setKey_stack (k : Nibble) (b : Bool) : (s.setKey k b).stack = s.stack := rfl
@[simp] theorem State.setKey_dt (k : Nibble) (b : Bool) : (s.setKey k b).dt = s.dt := rfl
@[simp] theorem State.setKey_st (k : Nibble) (b : Bool) : (s.setKey k b).st = s.st := rfl
@[simp] theorem State.setKey_fb (k : Nibble) (b : Bool) : (s.setKey k b).fb = s.fb := rfl
@[simp] theorem State.setKey_key (k : Nibble) (b : Bool) : (s.setKey k b).key = s.key.set k.toNat b k.isLt := rfl
@[simp] theorem State.setKey_run (k : Nibble) (b : Bool) : (s.setKey k b).run = s.run := rfl
@[simp] theorem State.setKey_pending (k : Nibble) (b : Bool) : (s.setKey k b).pending = s.pending := rfl
@[simp] theorem State.setKey_rndCount (k : Nibble) (b : Bool) : (s.setKey k b).rndCount = s.rndCount := rfl

@[simp] theorem State.setKey_reg (k : Nibble) (b : Bool) (z : Nibble) : (s.setKey k b).reg z = s.reg z := rfl
@[simp] theorem State.setKey_readByte (k : Nibble) (b : Bool) (z : Nat) : (s.setKey k b).readByte z = s.readByte z := rfl
@[simp] theorem State.setKey_pixel (k : Nibble) (b : Bool) (z w : Nat) : (s.setKey k b).pixel z w = s.pixel z w := rfl
@[simp] theorem State.setKey_depth (k : Nibble) (b : Bool) : (s.setKey k b).depth = s.depth := rfl
@[simp] theorem State.setKey_rows (k : Nibble) (b : Bool) : (s.setKey k b).rows = s.rows := rfl

/-! ### setRun -/

@[simp] theorem State.setRun_cfg (r : RunState) : (s.setRun r).cfg = s.cfg := rfl
@[simp] theorem State.setRun_mem (r : RunState) : (s.setRun r).mem = s.mem := rfl
@[simp] theorem State.setRun_v (r : RunState) : (s.setRun r).v = s.v := rfl
@[simp] theorem State.setRun_index (r : RunState) : (s.setRun r).index = s.index := rfl
@[simp] theorem State.setRun_pc (r : RunState) : (s.setRun r).pc = s.pc := rfl
@[simp] theorem State.setRun_stack (r : RunState) : (s.setRun r).stack = s.stack := rfl
@[simp] theorem State.setRun_dt (r : RunState) : (s.setRun r).dt = s.dt := rfl
@[simp] theorem State.setRun_st (r : RunState) : (s.setRun r).st = s.st := rfl
@[simp] theorem State.setRun_fb (r : RunState) : (s.setRun r).fb = s.fb := rfl
@[simp] theorem State.setRun_key (r : RunState) : (s.setRun r).key = s.key := rfl
@[simp] theorem State.setRun_run (r : RunState) : (s.setRun r).run = r := rfl
@[simp] theorem State.setRun_pending (r : RunState) : (s.setRun r).pending = s.pending := rfl
@[simp] theorem State.setRun_rndCount (r : RunState) : (s.setRun r).rndCount = s.rndCount := rfl

@[simp] theorem State.setRun_reg (r : RunState) (z : Nibble) : (s.setRun r).reg z = s.reg z := rfl
@[simp] theorem State.setRun_readByte (r : RunState) (z : Nat) : (s.setRun r).readByte z = s.readByte z := rfl
@[simp] theorem State.setRun_pixel (r : RunState) (z w : Nat) : (s.setRun r).pixel z w = s.pixel z w := rfl
@[simp] theorem State.setRun_keyHeld (r : RunState) (z : Nibble) : (s.setRun r).keyHeld z = s.keyHeld z := rfl
@[simp] theorem State.setRun_depth (r : RunState) : (s.setRun r).depth = s.depth := rfl
@[simp] theorem State.setRun_rows (r : RunState) : (s.setRun r).rows = s.rows := rfl

/-! ### setPending -/

@[simp] theorem State.setPending_cfg (ops : List HostOp) : (s.setPending ops).cfg = s.cfg := rfl
@[simp] theorem State.setPending_mem (ops : List HostOp) : (s.setPending ops).mem = s.mem := rfl
@[simp] theorem State.setPending_v (ops : List HostOp) : (s.setPending ops).v = s.v := rfl
@[simp] theorem State.setPending_index (ops : List HostOp) : (s.setPending ops).index = s.index := rfl
@[simp] theorem State.setPending_pc (ops : List HostOp) : (s.setPending ops).pc = s.pc := rfl
@[simp] theorem State.setPending_stack (ops : List HostOp) : (s.setPending ops).stack = s.stack := rfl
@[simp] theorem State.setPending_dt (ops : List HostOp) : (s.setPending ops).dt = s.dt := rfl
@[simp] theorem State.setPending_st (ops : List HostOp) : (s.setPending ops).st = s.st := rfl
@[simp] theorem State.setPending_fb (ops : List HostOp) : (s.setPending ops).fb = s.fb := rfl
@[simp] theorem State.setPending_key (ops : List HostOp) : (s.setPending ops).key = s.key := rfl
@[simp] theorem State.setPending_run (ops : List HostOp) : (s.setPending ops).run = s.run := rfl
@[simp] theorem State.setPending_pending (ops : List HostOp) : (s.setPending ops).pending = ops := rfl
@[simp] theorem State.setPending_rndCount (ops : List HostOp) : (s.setPending ops).rndCount = s.rndCount := rfl

@[simp] theorem State.setPending_reg (ops : List HostOp) (z : Nibble) : (s.setPending ops).reg z = s.reg z := rfl
@[simp] theorem State.setPending_readByte (ops : List HostOp) (z : Nat) : (s.setPending ops).readByte z = s.readByte z := rfl
@[simp] theorem State.setPending_pixel (ops : List HostOp) (z w : Nat) : (s.setPending ops).pixel z w = s.pixel z w := rfl
@[simp] theorem State.setPending_keyHeld (ops : List HostOp) (z : Nibble) : (s.setPending ops).keyHeld z = s.keyHeld z := rfl
@[simp] theorem State.setPending_depth (ops : List HostOp) : (s.setPending ops).depth = s.depth := rfl
@[simp] theorem State.setPending_rows (ops : List HostOp) : (s.setPending ops).rows = s.rows := rfl

/-! ### setRndCount -/

@[simp] theorem State.setRndCount_cfg (k : Nat) : (s.setRndCount k).cfg = s.cfg := rfl
@[simp] theorem State.setRndCount_mem (k : Nat) : (s.setRndCount k).mem = s.mem := rfl
@[simp] theorem State.setRndCount_v (k : Nat) : (s.setRndCount k).v = s.v := rfl
@[simp] theorem State.setRndCount_index (k : Nat) : (s.setRndCount k).index = s.index := rfl
@[simp] theorem State.setRndCount_pc (k : Nat) : (s.setRndCount k).pc = s.pc := rfl
@[simp] theorem State.setRndCount_stack (k : Nat) : (s.setRndCount k).stack = s.stack := rfl
@[simp] theorem State.setRndCount_dt (k : Nat) : (s.setRndCount k).dt = s.dt := rfl
@[simp] theorem State.setRndCount_st (k : Nat) : (s.setRndCount k).st = s.st := rfl
@[simp] theorem State.setRndCount_fb (k : Nat) : (s.setRndCount k).fb = s.fb := rfl
@[simp] theorem State.setRndCount_key (k : Nat) : (s.setRndCount k).key = s.key := rfl
@[simp] theorem State.setRndCount_run (k : Nat) : (s.setRndCount k).run = s.run := rfl
@[simp] theorem State.setRndCount_pending (k : Nat) : (s.setRndCount k).pending = s.pending := rfl
@[simp] theorem State.setRndCount_rndCount (k : Nat) : (s.setRndCount k).rndCount = k := rfl

@[simp] theorem State.setRndCount_reg (k : Nat) (z : Nibble) : (s.setRndCount k).reg z = s.reg z := rfl
@[simp] theorem State.setRndCount_readByte (k : Nat) (z : Nat) : (s.setRndCount k).readByte z = s.readByte z := rfl
@[simp] theorem State.setRndCount_pixel (k : Nat) (z w : Nat) : (s.setRndCount k).pixel z w = s.pixel z w := rfl
@[simp] theorem State.setRndCount_keyHeld (k : Nat) (z : Nibble) : (s.setRndCount k).keyHeld z = s.keyHeld z := rfl
@[simp] theorem State.setRndCount_depth (k : Nat) : (s.setRndCount k).depth = s.depth := rfl
@[simp] theorem State.setRndCount_rows (k : Nat) : (s.setRndCount k).rows = s.rows := rfl

/-! ### What an update of a read-out's own field reads as -/

@[simp] theorem State.setReg_reg (x : Nibble) (b : Byte) (z : Nibble) :
    (s.setReg x b).reg z = if z = x then b else s.reg z := by
  simp [State.setReg, State.reg, Vector.getElem_set, BitVec.toNat_eq, eq_comm]

@[simp] theorem State.setKey_keyHeld (k : Nibble) (b : Bool) (z : Nibble) :
    (s.setKey k b).keyHeld z = if z = k then b else s.keyHeld z := by
  simp [State.setKey, State.keyHeld, Vector.getElem_set, BitVec.toNat_eq, eq_comm]

@[simp] theorem State.setFb_pixel (f : List (List Bool)) (x y : Nat) : (s.setFb f).pixel x y = cellAt f x y := rfl

@[simp] theorem State.setStack_depth (l : List Word) : (s.setStack l).depth = l.length := rfl

@[simp] theorem State.setMem_readByte (m : Memory) (a : Nat) :
    (s.setMem m).readByte a = Memory.read s.cfg m a := rfl

/-! ### The state after RESET (70_reset_and_hazards.md R271) -/

/-- PROG_BASE as a program counter. -/
@[simp] theorem ofNat_progBase : BitVec.ofNat 16 progBase = 0x200#16 := rfl

@[simp] theorem State.construct_cfg (c : Config) : (State.construct c).cfg = c := rfl
@[simp] theorem State.construct_mem (c : Config) : (State.construct c).mem = [] := rfl
@[simp] theorem State.construct_index (c : Config) : (State.construct c).index = 0 := rfl
@[simp] theorem State.construct_pc (c : Config) : (State.construct c).pc = 0x200 := rfl
@[simp] theorem State.construct_stack (c : Config) : (State.construct c).stack = [] := rfl
@[simp] theorem State.construct_dt (c : Config) : (State.construct c).dt = 0 := rfl
@[simp] theorem State.construct_st (c : Config) : (State.construct c).st = 0 := rfl
@[simp] theorem State.construct_fb (c : Config) : (State.construct c).fb = blankScreen c.screen.rows := rfl
@[simp] theorem State.construct_run (c : Config) : (State.construct c).run = .notStarted := rfl
@[simp] theorem State.construct_reg (c : Config) (z : Nibble) : (State.construct c).reg z = 0 := by
  simp [State.construct, State.reg]
@[simp] theorem State.construct_keyHeld (c : Config) (k : Nibble) : (State.construct c).keyHeld k = false := by
  simp [State.construct, State.keyHeld]

/-- Two states with the same field values are the same state. -/
theorem State.ext_fields {s t : State} (hcfg : s.cfg = t.cfg) (hmem : s.mem = t.mem) (hv : s.v = t.v)
    (hindex : s.index = t.index) (hpc : s.pc = t.pc) (hstack : s.stack = t.stack) (hdt : s.dt = t.dt)
    (hst : s.st = t.st) (hfb : s.fb = t.fb) (hkey : s.key = t.key) (hrun : s.run = t.run)
    (hpending : s.pending = t.pending) (hrnd : s.rndCount = t.rndCount) : s = t := by
  cases s; cases t; simp_all

/-- The register file is determined by what `reg` reads. -/
theorem State.v_ext {s t : State} (h : ∀ x, s.reg x = t.reg x) : s.v = t.v := by
  apply Vector.ext
  intro i hi
  have := h (BitVec.ofNat 4 i)
  simpa [State.reg, Nat.mod_eq_of_lt hi] using this

end Sys2Proof.Machine
end

