-- ==== Sys2Proof/Laws/Framebuffer.lean ====
section
/-! SUPPORT. The framebuffer: a cell after a write, that the grid keeps its shape, `set_pixel`, and what drawing a
list of cells does. -/
namespace Sys2Proof.Machine

variable {fb : List (List Bool)} {rows x y x' y' : Nat} {b : Bool}

theorem State.screenFull_iff (s : State) : s.screenFull ↔ gridFull s.rows s.fb := Iff.rfl

theorem gridFull_blankScreen : gridFull rows (blankScreen rows) := by
  refine ⟨by simp [blankScreen], fun row h => ?_⟩
  obtain ⟨-, rfl⟩ := List.mem_replicate.1 h
  simp

@[simp] theorem cellAt_blankScreen : cellAt (blankScreen rows) x y = false := by
  by_cases h : y < rows
  · by_cases h2 : x < cols <;> simp [cellAt, blankScreen, List.getD, h, h2]
  · simp [cellAt, blankScreen, List.getD, h]

theorem gridFull_setCellAt (h : gridFull rows fb) : gridFull rows (setCellAt fb x y b) := by
  refine ⟨by simpa [setCellAt] using h.1, fun row hrow => ?_⟩
  obtain ⟨i, hi, rfl⟩ := List.mem_iff_getElem.1 hrow
  have hi' : i < fb.length := by simpa [setCellAt] using hi
  have hl := h.2 _ (List.getElem_mem hi')
  simp only [setCellAt, List.getElem_modify]
  split <;> simp [hl]

/-- A cell after a write to a cell of a full grid. -/
theorem cellAt_setCellAt (h : gridFull rows fb) (hx : x < cols) (hy : y < rows) :
    cellAt (setCellAt fb x y b) x' y' = if x' = x ∧ y' = y then b else cellAt fb x' y' := by
  have hy' : y < fb.length := by rw [h.1]; exact hy
  have hrow : fb[y].length = cols := h.2 _ (List.getElem_mem hy')
  by_cases h1 : y' = y
  · subst h1
    by_cases h2 : x' = x
    · subst h2
      simp [cellAt, setCellAt, List.getD, List.getElem?_eq_getElem hy', hrow, hx]
    · simp [cellAt, setCellAt, List.getD, List.getElem?_eq_getElem hy', h2, Ne.symm h2]
  · simp [cellAt, setCellAt, List.getD, Ne.symm h1, h1]

/-! ## `set_pixel` on a cell of the grid (44_display.md R201) -/

theorem setPixel_fst (hx : x < cols) (hy : y < rows) :
    (setPixel rows fb x y).1 = setCellAt fb x y (!cellAt fb x y) := by
  simp [setPixel, Nat.mod_eq_of_lt hx, Nat.mod_eq_of_lt hy]

theorem setPixel_snd (hx : x < cols) (hy : y < rows) : (setPixel rows fb x y).2 = cellAt fb x y := by
  simp [setPixel, Nat.mod_eq_of_lt hx, Nat.mod_eq_of_lt hy]

theorem gridFull_setPixel (h : gridFull rows fb) : gridFull rows (setPixel rows fb x y).1 :=
  gridFull_setCellAt h

/-! ## Drawing a list of cells -/

theorem gridFull_drawCells {cells : List (Nat × Nat)} (h : gridFull rows fb) :
    gridFull rows (drawCells rows fb cells).1 := by
  induction cells generalizing fb with
  | nil => exact h
  | cons p rest ih => exact ih (gridFull_setPixel h)

/-- Drawing distinct cells of the grid toggles exactly them. -/
theorem cellAt_drawCells {cells : List (Nat × Nat)} (h : gridFull rows fb)
    (hin : ∀ p ∈ cells, p.1 < cols ∧ p.2 < rows) (hnd : cells.Nodup) :
    cellAt (drawCells rows fb cells).1 x y = (cellAt fb x y ^^ decide ((x, y) ∈ cells)) := by
  induction cells generalizing fb with
  | nil => simp [drawCells]
  | cons p rest ih =>
    obtain ⟨px, py⟩ := p
    have hp := hin (px, py) List.mem_cons_self
    rw [List.nodup_cons] at hnd
    have ih' := ih (gridFull_setPixel (x := px) (y := py) h) (fun q hq => hin q (List.mem_cons_of_mem _ hq)) hnd.2
    simp only [drawCells]
    rw [ih', setPixel_fst hp.1 hp.2, cellAt_setCellAt h hp.1 hp.2]
    by_cases heq : x = px ∧ y = py
    · obtain ⟨rfl, rfl⟩ := heq
      simp [hnd.1]
    · have hne : (x, y) ≠ (px, py) := by simpa using heq
      simp [heq, hne]

/-- Drawing distinct cells of the grid collides iff one of them was set. -/
theorem drawCells_collision {cells : List (Nat × Nat)} (h : gridFull rows fb)
    (hin : ∀ p ∈ cells, p.1 < cols ∧ p.2 < rows) (hnd : cells.Nodup) :
    (drawCells rows fb cells).2 = cells.any fun p => cellAt fb p.1 p.2 := by
  induction cells generalizing fb with
  | nil => rfl
  | cons p rest ih =>
    obtain ⟨px, py⟩ := p
    have hp := hin (px, py) List.mem_cons_self
    rw [List.nodup_cons] at hnd
    have ih' := ih (gridFull_setPixel (x := px) (y := py) h) (fun q hq => hin q (List.mem_cons_of_mem _ hq)) hnd.2
    simp only [drawCells, ih', setPixel_snd hp.1 hp.2, List.any_cons]
    congr 1
    rw [Bool.eq_iff_iff, List.any_eq_true, List.any_eq_true]
    refine exists_congr fun q => and_congr_right fun hq => ?_
    rw [setPixel_fst hp.1 hp.2, cellAt_setCellAt h hp.1 hp.2, if_neg]
    rintro ⟨rfl, rfl⟩
    exact hnd.1 hq

/-! ## The cells of a sprite (44_display.md R204) -/

theorem mem_drawnInRow {ox py px : Nat} {byte : Byte} :
    (px, py) ∈ drawnInRow rows ox y byte ↔
      py = y ∧ y < rows ∧ ox ≤ px ∧ px < ox + 8 ∧ px < cols ∧ byte.getLsbD (7 - (px - ox)) = true := by
  simp only [drawnInRow, isOffscreen, List.mem_map, List.mem_filter, List.mem_range, Prod.mk.injEq]
  constructor
  · rintro ⟨c, ⟨hc, hbit⟩, rfl, rfl⟩
    simp only [Bool.and_eq_true, Bool.not_eq_true', Bool.or_eq_false_iff, decide_eq_false_iff_not, not_le] at hbit
    exact ⟨rfl, hbit.2.2, by omega, by omega, hbit.2.1, by rw [Nat.add_sub_cancel_left]; exact hbit.1⟩
  · rintro ⟨rfl, hy, h1, h2, h3, h4⟩
    refine ⟨px - ox, ⟨by omega, ?_⟩, by omega, rfl⟩
    simp [h4, show ox + (px - ox) = px by omega, h3, hy]

/-- A cell is drawn iff it is on the screen, in one of the sprite's rows and columns, and its bit is set. -/
theorem mem_drawnCells {ox oy px py : Nat} {bs : List Byte} :
    (px, py) ∈ drawnCells rows ox oy bs ↔
      py < rows ∧ px < cols ∧ ox ≤ px ∧ px < ox + 8 ∧ oy ≤ py ∧ py < oy + bs.length ∧
        (bs.getD (py - oy) 0).getLsbD (7 - (px - ox)) = true := by
  induction bs generalizing oy with
  | nil =>
    simp only [drawnCells, List.not_mem_nil, List.length_nil, false_iff]
    omega
  | cons v rest ih =>
    simp only [drawnCells, List.mem_append, mem_drawnInRow, ih, List.length_cons]
    by_cases h : py = oy
    · subst h
      simp only [Nat.sub_self, List.getD_cons_zero]
      constructor
      · rintro (h | h)
        · exact ⟨h.2.1, h.2.2.2.2.1, h.2.2.1, h.2.2.2.1, le_rfl, by omega, h.2.2.2.2.2⟩
        · omega
      · rintro h
        exact .inl ⟨trivial, h.1, h.2.2.1, h.2.2.2.1, h.2.1, h.2.2.2.2.2.2⟩
    · by_cases h2 : oy < py
      · have hsub : py - oy = (py - (oy + 1)) + 1 := by omega
        rw [hsub, List.getD_cons_succ]
        constructor
        · rintro (h' | h')
          · omega
          · exact ⟨h'.1, h'.2.1, h'.2.2.1, h'.2.2.2.1, by omega, by omega, h'.2.2.2.2.2.2⟩
        · rintro h'
          exact .inr ⟨h'.1, h'.2.1, h'.2.2.1, h'.2.2.2.1, by omega, by omega, h'.2.2.2.2.2.2⟩
      · constructor
        · rintro (h' | h') <;> omega
        · intro h'; omega

theorem drawnCells_inRange {ox oy : Nat} {bs : List Byte} :
    ∀ p ∈ drawnCells rows ox oy bs, p.1 < cols ∧ p.2 < rows := by
  rintro ⟨px, py⟩ h
  rw [mem_drawnCells] at h
  exact ⟨h.2.1, h.1⟩

theorem nodup_drawnInRow {ox : Nat} {byte : Byte} : (drawnInRow rows ox y byte).Nodup := by
  refine List.Nodup.map (fun a c h => ?_) (List.Nodup.filter _ List.nodup_range)
  simp only [Prod.mk.injEq] at h
  omega

/-- A sprite draws each cell once. -/
theorem nodup_drawnCells {ox oy : Nat} {bs : List Byte} : (drawnCells rows ox oy bs).Nodup := by
  induction bs generalizing oy with
  | nil => exact List.nodup_nil
  | cons v rest ih =>
    refine List.Nodup.append nodup_drawnInRow ih ?_
    rintro ⟨px, py⟩ h1 h2
    rw [mem_drawnInRow] at h1
    rw [mem_drawnCells] at h2
    omega

end Sys2Proof.Machine
end

