-- ==== Sys2Proof/Laws/Memory.lean ====
section
/-! SUPPORT. Memory: a read after a write, and that every memory operation keeps the canonical form. -/
namespace Sys2Proof.Machine

variable {c : Config} {m : Memory} {a b lo : Nat} {x : Byte}

@[simp] theorem Memory.read_nil : Memory.read c [] a = initialByte c a := rfl

/-! ## The reset contents (10_state.md R38) -/

/-- In the font: row `r` of glyph `d` at `5 * d + r`. -/
theorem initialByte_font {d r : Nat} (hd : d < 16) (hr : r < 5) : initialByte c (5 * d + r) = (c.font[d])[r] := by
  have h : fontBase ≤ 5 * d + r ∧ 5 * d + r - fontBase < fontLen := ⟨Nat.zero_le _, show 5 * d + r < 80 by omega⟩
  unfold initialByte
  rw [dif_pos h]
  simp only [fontBase, glyphBytes, Nat.sub_zero, show (5 * d + r) / 5 = d by omega,
    show (5 * d + r) % 5 = r by omega]

/-- From FONT_LEN on: zero. -/
theorem initialByte_above (h : fontLen ≤ a) : initialByte c a = 0 := dif_neg fun ⟨_, h'⟩ => Nat.not_lt.2 h h'

/-! ## The canonical form, entry by entry -/

theorem Memory.wfFrom_cons {rest : Memory} :
    Memory.wfFrom c lo ((b, x) :: rest) = true ↔
      lo ≤ b ∧ b < memSize ∧ x ≠ initialByte c b ∧ Memory.wfFrom c (b + 1) rest = true := by
  simp [Memory.wfFrom, and_assoc]

/-- A form that holds from an address on holds from every lower one. -/
theorem Memory.wfFrom_mono {lo' : Nat} (h : Memory.wfFrom c lo m = true) (hlo : lo' ≤ lo) :
    Memory.wfFrom c lo' m = true := by
  cases m with
  | nil => rfl
  | cons e rest =>
    obtain ⟨b, x⟩ := e
    rw [Memory.wfFrom_cons] at h ⊢
    exact ⟨le_trans hlo h.1, h.2⟩

/-! ## Reading after erasing and inserting -/

theorem Memory.lookup_insert : (Memory.insert m a x).lookup b = if b = a then some x else m.lookup b := by
  induction m with
  | nil => simp [Memory.insert, Memory.lookup]
  | cons e rest ih =>
    obtain ⟨k, y⟩ := e
    simp only [Memory.insert]
    split
    · simp [Memory.lookup]
    · split
      · simp only [Memory.lookup]; subst_vars; split <;> simp_all
      · simp only [Memory.lookup, ih]; split <;> simp_all
        omega

theorem Memory.lookup_erase : (Memory.erase m a).lookup b = if b = a then none else m.lookup b := by
  induction m with
  | nil => simp [Memory.erase, Memory.lookup]
  | cons e rest ih =>
    obtain ⟨k, y⟩ := e
    simp only [Memory.erase]
    split
    · subst_vars; simp only [ih, Memory.lookup]; split <;> simp_all
    · simp only [Memory.lookup, ih]; split <;> simp_all
      omega

/-- A read after a write gives the value written there, and what was there before elsewhere. -/
theorem Memory.read_write :
    Memory.read c (Memory.write c m a x) b = if b = a then x else Memory.read c m b := by
  unfold Memory.read Memory.write
  split
  · rename_i hx
    rw [Memory.lookup_erase]
    split
    · subst_vars; rfl
    · rfl
  · rw [Memory.lookup_insert]
    split <;> rfl

/-! ## The canonical form is kept -/

theorem Memory.wfFrom_insert (h : Memory.wfFrom c lo m = true) (hlo : lo ≤ a) (ha : a < memSize)
    (hx : x ≠ initialByte c a) : Memory.wfFrom c lo (Memory.insert m a x) = true := by
  induction m generalizing lo with
  | nil => simp [Memory.insert, Memory.wfFrom, hlo, ha, hx]
  | cons e rest ih =>
    obtain ⟨k, y⟩ := e
    have h' := h
    rw [Memory.wfFrom_cons] at h'
    simp only [Memory.insert]
    split
    · rename_i hk
      rw [Memory.wfFrom_cons]
      exact ⟨hlo, ha, hx, by rw [Memory.wfFrom_cons]; exact ⟨hk, h'.2⟩⟩
    · split
      · rename_i hk
        subst hk
        rw [Memory.wfFrom_cons]
        exact ⟨hlo, ha, hx, h'.2.2.2⟩
      · rw [Memory.wfFrom_cons]
        exact ⟨h'.1, h'.2.1, h'.2.2.1, ih h'.2.2.2 (by omega)⟩

theorem Memory.wfFrom_erase (h : Memory.wfFrom c lo m = true) : Memory.wfFrom c lo (Memory.erase m a) = true := by
  induction m generalizing lo with
  | nil => rfl
  | cons e rest ih =>
    obtain ⟨k, y⟩ := e
    rw [Memory.wfFrom_cons] at h
    simp only [Memory.erase]
    split
    · exact Memory.wfFrom_mono (ih h.2.2.2) (by omega)
    · rw [Memory.wfFrom_cons]
      exact ⟨h.1, h.2.1, h.2.2.1, ih h.2.2.2⟩

/-- A write to an address that exists keeps the canonical form. -/
theorem Memory.wf_write (h : Memory.wf c m = true) (ha : a < memSize) : Memory.wf c (Memory.write c m a x) = true := by
  unfold Memory.write
  split
  · exact Memory.wfFrom_erase h
  · rename_i hx
    exact Memory.wfFrom_insert h (Nat.zero_le a) ha hx

/-- Consecutive writes to addresses that exist keep the canonical form. -/
theorem Memory.wf_writeBytes {bs : List Byte} (h : Memory.wf c m = true) (ha : a + bs.length ≤ memSize) :
    Memory.wf c (Memory.writeBytes c m a bs) = true := by
  induction bs generalizing m a with
  | nil => exact h
  | cons y ys ih =>
    simp only [List.length_cons] at ha
    exact ih (Memory.wf_write h (by omega)) (by omega)

/-- A read after consecutive writes: the byte written there, and what was there before outside them. -/
theorem Memory.read_writeBytes {bs : List Byte} :
    Memory.read c (Memory.writeBytes c m a bs) b =
      if a ≤ b ∧ b < a + bs.length then bs.getD (b - a) 0 else Memory.read c m b := by
  induction bs generalizing m a with
  | nil =>
    rw [if_neg (by simp only [List.length_nil]; omega)]
    rfl
  | cons y ys ih =>
    simp only [Memory.writeBytes, ih, Memory.read_write, List.length_cons]
    rcases Nat.lt_trichotomy b a with hb | hb | hb
    · rw [if_neg (by omega), if_neg (by omega), if_neg (by omega)]
    · subst hb
      rw [if_neg (by omega), if_pos rfl, if_pos (by omega)]
      simp
    · have hsub : b - a = (b - (a + 1)) + 1 := by omega
      by_cases hin : b < a + (ys.length + 1)
      · rw [if_pos (by omega), if_pos (by omega), hsub, List.getD_cons_succ]
      · rw [if_neg (by omega), if_neg (by omega), if_neg (by omega)]

/-! ## The state's memory -/

@[simp] theorem State.storeBytes_readByte {s : State} {bs : List Byte} :
    (s.storeBytes a bs).readByte b = if a ≤ b ∧ b < a + bs.length then bs.getD (b - a) 0 else s.readByte b :=
  Memory.read_writeBytes

/-- Reset memory lists nothing. -/
theorem State.construct_memory_wf (c : Config) : Memory.wf c (State.construct c).mem = true := rfl

end Sys2Proof.Machine
end

