-- ==== Sys2Proof/Laws/Ops.lean ====
section
/-! SUPPORT. What each shared operation can do: one lemma per operation and field it may change, and that the other
fields stay. -/
namespace Sys2Proof.Machine

variable (s : State)

/-! ## Taking a fault (60_exceptions.md R232) -/

/-- Raising a fault changes the run-state and nothing else. -/
theorem raise_eq (cause : FaultCause) (info : Nat) :
    raise cause info s = .next (s.setRun (.halted cause (s.pc - 2) info)) := rfl

/-- An access that leaves memory raises the fault with the lowest offending address. -/
theorem checkedAccess_out {base last : Nat} {t : State} (h : memSize ≤ last) :
    checkedAccess base last s t = .next (s.setRun (.halted .outOfBoundsMemoryAccess (s.pc - 2) (max base memSize))) := by
  simp [checkedAccess, h, raise_eq, offendingAddress]

/-- An access inside memory has its effect. -/
theorem checkedAccess_in {base last : Nat} {t : State} (h : last < memSize) :
    checkedAccess base last s t = .next t := by
  simp [checkedAccess, Nat.not_le.2 h]

/-- Everything a checked access can answer. -/
theorem checkedAccess_cases (base last : Nat) (t : State) :
    (last < memSize ∧ checkedAccess base last s t = .next t) ∨
      (memSize ≤ last ∧ checkedAccess base last s t =
        .next (s.setRun (.halted .outOfBoundsMemoryAccess (s.pc - 2) (max base memSize)))) := by
  rcases Nat.lt_or_ge last memSize with h | h
  · exact .inl ⟨h, checkedAccess_in s h⟩
  · exact .inr ⟨h, checkedAccess_out s h⟩

/-! ## Skips (00_scope.md R10) -/

@[simp] theorem State.skipIf_pc (b : Bool) : (s.skipIf b).pc = if b then s.pc + 2 else s.pc := by
  cases b <;> rfl

theorem State.skipIf_eq_setPc (b : Bool) : s.skipIf b = s.setPc (if b then s.pc + 2 else s.pc) := by
  cases b <;> rfl

/-! ### skipIf: what stays -/

@[simp] theorem State.skipIf_cfg (b : Bool) : (s.skipIf b).cfg = s.cfg := by cases b <;> rfl
@[simp] theorem State.skipIf_mem (b : Bool) : (s.skipIf b).mem = s.mem := by cases b <;> rfl
@[simp] theorem State.skipIf_v (b : Bool) : (s.skipIf b).v = s.v := by cases b <;> rfl
@[simp] theorem State.skipIf_index (b : Bool) : (s.skipIf b).index = s.index := by cases b <;> rfl
@[simp] theorem State.skipIf_stack (b : Bool) : (s.skipIf b).stack = s.stack := by cases b <;> rfl
@[simp] theorem State.skipIf_dt (b : Bool) : (s.skipIf b).dt = s.dt := by cases b <;> rfl
@[simp] theorem State.skipIf_st (b : Bool) : (s.skipIf b).st = s.st := by cases b <;> rfl
@[simp] theorem State.skipIf_fb (b : Bool) : (s.skipIf b).fb = s.fb := by cases b <;> rfl
@[simp] theorem State.skipIf_key (b : Bool) : (s.skipIf b).key = s.key := by cases b <;> rfl
@[simp] theorem State.skipIf_run (b : Bool) : (s.skipIf b).run = s.run := by cases b <;> rfl
@[simp] theorem State.skipIf_pending (b : Bool) : (s.skipIf b).pending = s.pending := by cases b <;> rfl
@[simp] theorem State.skipIf_rndCount (b : Bool) : (s.skipIf b).rndCount = s.rndCount := by cases b <;> rfl

@[simp] theorem State.skipIf_reg (b : Bool) (z : Nibble) : (s.skipIf b).reg z = s.reg z := by cases b <;> rfl
@[simp] theorem State.skipIf_readByte (b : Bool) (z : Nat) : (s.skipIf b).readByte z = s.readByte z := by cases b <;> rfl
@[simp] theorem State.skipIf_pixel (b : Bool) (z u : Nat) : (s.skipIf b).pixel z u = s.pixel z u := by cases b <;> rfl
@[simp] theorem State.skipIf_keyHeld (b : Bool) (z : Nibble) : (s.skipIf b).keyHeld z = s.keyHeld z := by cases b <;> rfl
@[simp] theorem State.skipIf_depth (b : Bool) : (s.skipIf b).depth = s.depth := by cases b <;> rfl
@[simp] theorem State.skipIf_rows (b : Bool) : (s.skipIf b).rows = s.rows := by cases b <;> rfl

/-! ## The call stack (00_scope.md R10) -/

@[simp] theorem State.push_stack (a : Word) : (s.push a).stack = a :: s.stack := rfl

/-! ### push: what stays -/

@[simp] theorem State.push_cfg (a : Word) : (s.push a).cfg = s.cfg := rfl
@[simp] theorem State.push_mem (a : Word) : (s.push a).mem = s.mem := rfl
@[simp] theorem State.push_v (a : Word) : (s.push a).v = s.v := rfl
@[simp] theorem State.push_index (a : Word) : (s.push a).index = s.index := rfl
@[simp] theorem State.push_pc (a : Word) : (s.push a).pc = s.pc := rfl
@[simp] theorem State.push_dt (a : Word) : (s.push a).dt = s.dt := rfl
@[simp] theorem State.push_st (a : Word) : (s.push a).st = s.st := rfl
@[simp] theorem State.push_fb (a : Word) : (s.push a).fb = s.fb := rfl
@[simp] theorem State.push_key (a : Word) : (s.push a).key = s.key := rfl
@[simp] theorem State.push_run (a : Word) : (s.push a).run = s.run := rfl
@[simp] theorem State.push_pending (a : Word) : (s.push a).pending = s.pending := rfl
@[simp] theorem State.push_rndCount (a : Word) : (s.push a).rndCount = s.rndCount := rfl

@[simp] theorem State.push_reg (a : Word) (z : Nibble) : (s.push a).reg z = s.reg z := rfl
@[simp] theorem State.push_readByte (a : Word) (z : Nat) : (s.push a).readByte z = s.readByte z := rfl
@[simp] theorem State.push_pixel (a : Word) (z u : Nat) : (s.push a).pixel z u = s.pixel z u := rfl
@[simp] theorem State.push_keyHeld (a : Word) (z : Nibble) : (s.push a).keyHeld z = s.keyHeld z := rfl
@[simp] theorem State.push_rows (a : Word) : (s.push a).rows = s.rows := rfl

/-! ## Storing bytes -/

@[simp] theorem State.storeBytes_mem (a : Nat) (bs : List Byte) :
    (s.storeBytes a bs).mem = Memory.writeBytes s.cfg s.mem a bs := rfl

/-! ### storeBytes: what stays -/

@[simp] theorem State.storeBytes_cfg (a : Nat) (bs : List Byte) : (s.storeBytes a bs).cfg = s.cfg := rfl
@[simp] theorem State.storeBytes_v (a : Nat) (bs : List Byte) : (s.storeBytes a bs).v = s.v := rfl
@[simp] theorem State.storeBytes_index (a : Nat) (bs : List Byte) : (s.storeBytes a bs).index = s.index := rfl
@[simp] theorem State.storeBytes_pc (a : Nat) (bs : List Byte) : (s.storeBytes a bs).pc = s.pc := rfl
@[simp] theorem State.storeBytes_stack (a : Nat) (bs : List Byte) : (s.storeBytes a bs).stack = s.stack := rfl
@[simp] theorem State.storeBytes_dt (a : Nat) (bs : List Byte) : (s.storeBytes a bs).dt = s.dt := rfl
@[simp] theorem State.storeBytes_st (a : Nat) (bs : List Byte) : (s.storeBytes a bs).st = s.st := rfl
@[simp] theorem State.storeBytes_fb (a : Nat) (bs : List Byte) : (s.storeBytes a bs).fb = s.fb := rfl
@[simp] theorem State.storeBytes_key (a : Nat) (bs : List Byte) : (s.storeBytes a bs).key = s.key := rfl
@[simp] theorem State.storeBytes_run (a : Nat) (bs : List Byte) : (s.storeBytes a bs).run = s.run := rfl
@[simp] theorem State.storeBytes_pending (a : Nat) (bs : List Byte) : (s.storeBytes a bs).pending = s.pending := rfl
@[simp] theorem State.storeBytes_rndCount (a : Nat) (bs : List Byte) : (s.storeBytes a bs).rndCount = s.rndCount := rfl

@[simp] theorem State.storeBytes_reg (a : Nat) (bs : List Byte) (z : Nibble) : (s.storeBytes a bs).reg z = s.reg z := rfl
@[simp] theorem State.storeBytes_pixel (a : Nat) (bs : List Byte) (z u : Nat) : (s.storeBytes a bs).pixel z u = s.pixel z u := rfl
@[simp] theorem State.storeBytes_keyHeld (a : Nat) (bs : List Byte) (z : Nibble) : (s.storeBytes a bs).keyHeld z = s.keyHeld z := rfl
@[simp] theorem State.storeBytes_depth (a : Nat) (bs : List Byte) : (s.storeBytes a bs).depth = s.depth := rfl
@[simp] theorem State.storeBytes_rows (a : Nat) (bs : List Byte) : (s.storeBytes a bs).rows = s.rows := rfl

/-! ## Operands (30_encoding.md R93) -/

/-- A 12-bit immediate is zero-extended. -/
@[simp] theorem addrWord_toNat (nnn : Addr) : (addrWord nnn).toNat = nnn.toNat := by
  have := nnn.isLt
  simp [addrWord]
  omega

/-- A register is zero-extended. -/
@[simp] theorem byteWord_toNat (b : Byte) : (byteWord b).toNat = b.toNat := by
  have := b.isLt
  simp [byteWord]
  omega

/-- A register that names a key names that key's slot. -/
theorem keySlot_eq {b : Byte} {k : Nibble} (h : b.toNat = k.toNat) : keySlot b = k := by
  have := k.isLt
  apply BitVec.eq_of_toNat_eq
  simp [keySlot]
  omega

/-! ## Flags (42_alu.md R162) -/

/-- A flag is 0 or 1. -/
theorem flagByte_cases (f : Bool) : (f = false ∧ flagByte f = 0) ∨ (f = true ∧ flagByte f = 1) := by
  cases f
  · exact .inl ⟨rfl, rfl⟩
  · exact .inr ⟨rfl, rfl⟩

/-- The bit a right shift drops is the remainder by 2. -/
theorem flagByte_shiftOutRight (a : Byte) : (flagByte (shiftOutRight a)).toNat = a.toNat % 2 := by
  simp only [flagByte, shiftOutRight, BitVec.getLsbD, Nat.testBit_zero]
  split <;> simp_all

/-- The bit a left shift drops is the quotient by 128. -/
theorem flagByte_shiftOutLeft (a : Byte) : (flagByte (shiftOutLeft a)).toNat = a.toNat / 128 := by
  have := a.isLt
  simp only [flagByte, shiftOutLeft, BitVec.getLsbD, Nat.testBit_eq_decide_div_mod_eq]
  split <;> simp_all <;> omega

@[simp] theorem State.setFlag_reg (f : Bool) (z : Nibble) :
    (s.setFlag f).reg z = if z = 0xF#4 then flagByte f else s.reg z := by
  simp [State.setFlag]

/-- The flag wins over the result in VF. -/
@[simp] theorem State.setResultFlag_reg (x : Nibble) (r : Byte) (f : Bool) (z : Nibble) :
    (s.setResultFlag x r f).reg z = if z = 0xF#4 then flagByte f else if z = x then r else s.reg z := by
  simp [State.setResultFlag]

/-! ### setFlag: what stays -/

@[simp] theorem State.setFlag_cfg (f : Bool) : (s.setFlag f).cfg = s.cfg := rfl
@[simp] theorem State.setFlag_mem (f : Bool) : (s.setFlag f).mem = s.mem := rfl
@[simp] theorem State.setFlag_index (f : Bool) : (s.setFlag f).index = s.index := rfl
@[simp] theorem State.setFlag_pc (f : Bool) : (s.setFlag f).pc = s.pc := rfl
@[simp] theorem State.setFlag_stack (f : Bool) : (s.setFlag f).stack = s.stack := rfl
@[simp] theorem State.setFlag_dt (f : Bool) : (s.setFlag f).dt = s.dt := rfl
@[simp] theorem State.setFlag_st (f : Bool) : (s.setFlag f).st = s.st := rfl
@[simp] theorem State.setFlag_fb (f : Bool) : (s.setFlag f).fb = s.fb := rfl
@[simp] theorem State.setFlag_key (f : Bool) : (s.setFlag f).key = s.key := rfl
@[simp] theorem State.setFlag_run (f : Bool) : (s.setFlag f).run = s.run := rfl
@[simp] theorem State.setFlag_pending (f : Bool) : (s.setFlag f).pending = s.pending := rfl
@[simp] theorem State.setFlag_rndCount (f : Bool) : (s.setFlag f).rndCount = s.rndCount := rfl

@[simp] theorem State.setFlag_readByte (f : Bool) (z : Nat) : (s.setFlag f).readByte z = s.readByte z := rfl
@[simp] theorem State.setFlag_pixel (f : Bool) (z u : Nat) : (s.setFlag f).pixel z u = s.pixel z u := rfl
@[simp] theorem State.setFlag_keyHeld (f : Bool) (z : Nibble) : (s.setFlag f).keyHeld z = s.keyHeld z := rfl
@[simp] theorem State.setFlag_depth (f : Bool) : (s.setFlag f).depth = s.depth := rfl
@[simp] theorem State.setFlag_rows (f : Bool) : (s.setFlag f).rows = s.rows := rfl

/-! ### setResultFlag: what stays -/

@[simp] theorem State.setResultFlag_cfg (x : Nibble) (r : Byte) (f : Bool) : (s.setResultFlag x r f).cfg = s.cfg := rfl
@[simp] theorem State.setResultFlag_mem (x : Nibble) (r : Byte) (f : Bool) : (s.setResultFlag x r f).mem = s.mem := rfl
@[simp] theorem State.setResultFlag_index (x : Nibble) (r : Byte) (f : Bool) : (s.setResultFlag x r f).index = s.index := rfl
@[simp] theorem State.setResultFlag_pc (x : Nibble) (r : Byte) (f : Bool) : (s.setResultFlag x r f).pc = s.pc := rfl
@[simp] theorem State.setResultFlag_stack (x : Nibble) (r : Byte) (f : Bool) : (s.setResultFlag x r f).stack = s.stack := rfl
@[simp] theorem State.setResultFlag_dt (x : Nibble) (r : Byte) (f : Bool) : (s.setResultFlag x r f).dt = s.dt := rfl
@[simp] theorem State.setResultFlag_st (x : Nibble) (r : Byte) (f : Bool) : (s.setResultFlag x r f).st = s.st := rfl
@[simp] theorem State.setResultFlag_fb (x : Nibble) (r : Byte) (f : Bool) : (s.setResultFlag x r f).fb = s.fb := rfl
@[simp] theorem State.setResultFlag_key (x : Nibble) (r : Byte) (f : Bool) : (s.setResultFlag x r f).key = s.key := rfl
@[simp] theorem State.setResultFlag_run (x : Nibble) (r : Byte) (f : Bool) : (s.setResultFlag x r f).run = s.run := rfl
@[simp] theorem State.setResultFlag_pending (x : Nibble) (r : Byte) (f : Bool) : (s.setResultFlag x r f).pending = s.pending := rfl
@[simp] theorem State.setResultFlag_rndCount (x : Nibble) (r : Byte) (f : Bool) : (s.setResultFlag x r f).rndCount = s.rndCount := rfl

@[simp] theorem State.setResultFlag_readByte (x : Nibble) (r : Byte) (f : Bool) (z : Nat) : (s.setResultFlag x r f).readByte z = s.readByte z := rfl
@[simp] theorem State.setResultFlag_pixel (x : Nibble) (r : Byte) (f : Bool) (z u : Nat) : (s.setResultFlag x r f).pixel z u = s.pixel z u := rfl
@[simp] theorem State.setResultFlag_keyHeld (x : Nibble) (r : Byte) (f : Bool) (z : Nibble) : (s.setResultFlag x r f).keyHeld z = s.keyHeld z := rfl
@[simp] theorem State.setResultFlag_depth (x : Nibble) (r : Byte) (f : Bool) : (s.setResultFlag x r f).depth = s.depth := rfl
@[simp] theorem State.setResultFlag_rows (x : Nibble) (r : Byte) (f : Bool) : (s.setResultFlag x r f).rows = s.rows := rfl

/-! ## Blocks of registers (43_index_memory.md R185, R186) -/

/-! ### loadBlock: what stays -/

@[simp] theorem State.loadBlock_cfg (base k : Nat) : (s.loadBlock base k).cfg = s.cfg := by
  induction k <;> simp_all [State.loadBlock]
@[simp] theorem State.loadBlock_mem (base k : Nat) : (s.loadBlock base k).mem = s.mem := by
  induction k <;> simp_all [State.loadBlock]
@[simp] theorem State.loadBlock_index (base k : Nat) : (s.loadBlock base k).index = s.index := by
  induction k <;> simp_all [State.loadBlock]
@[simp] theorem State.loadBlock_pc (base k : Nat) : (s.loadBlock base k).pc = s.pc := by
  induction k <;> simp_all [State.loadBlock]
@[simp] theorem State.loadBlock_stack (base k : Nat) : (s.loadBlock base k).stack = s.stack := by
  induction k <;> simp_all [State.loadBlock]
@[simp] theorem State.loadBlock_dt (base k : Nat) : (s.loadBlock base k).dt = s.dt := by
  induction k <;> simp_all [State.loadBlock]
@[simp] theorem State.loadBlock_st (base k : Nat) : (s.loadBlock base k).st = s.st := by
  induction k <;> simp_all [State.loadBlock]
@[simp] theorem State.loadBlock_fb (base k : Nat) : (s.loadBlock base k).fb = s.fb := by
  induction k <;> simp_all [State.loadBlock]
@[simp] theorem State.loadBlock_key (base k : Nat) : (s.loadBlock base k).key = s.key := by
  induction k <;> simp_all [State.loadBlock]
@[simp] theorem State.loadBlock_run (base k : Nat) : (s.loadBlock base k).run = s.run := by
  induction k <;> simp_all [State.loadBlock]
@[simp] theorem State.loadBlock_pending (base k : Nat) : (s.loadBlock base k).pending = s.pending := by
  induction k <;> simp_all [State.loadBlock]
@[simp] theorem State.loadBlock_rndCount (base k : Nat) : (s.loadBlock base k).rndCount = s.rndCount := by
  induction k <;> simp_all [State.loadBlock]

@[simp] theorem State.loadBlock_readByte (base k : Nat) (z : Nat) : (s.loadBlock base k).readByte z = s.readByte z := by
  induction k <;> simp_all [State.loadBlock]
@[simp] theorem State.loadBlock_pixel (base k : Nat) (z u : Nat) : (s.loadBlock base k).pixel z u = s.pixel z u := by
  induction k <;> simp_all [State.loadBlock]
@[simp] theorem State.loadBlock_keyHeld (base k : Nat) (z : Nibble) : (s.loadBlock base k).keyHeld z = s.keyHeld z := by
  induction k <;> simp_all [State.loadBlock]
@[simp] theorem State.loadBlock_depth (base k : Nat) : (s.loadBlock base k).depth = s.depth := by
  induction k <;> simp_all [State.loadBlock]
@[simp] theorem State.loadBlock_rows (base k : Nat) : (s.loadBlock base k).rows = s.rows := by
  induction k <;> simp_all [State.loadBlock]

/-- Loading a block writes the registers below its length from consecutive bytes. -/
theorem State.loadBlock_reg (base k : Nat) (hk : k ≤ 16) (z : Nibble) :
    (s.loadBlock base k).reg z = if z.toNat < k then s.readByte (base + z.toNat) else s.reg z := by
  induction k with
  | zero => simp [State.loadBlock]
  | succ k ih =>
    rw [State.loadBlock, State.setReg_reg, ih (by omega)]
    have hz : z = BitVec.ofNat 4 k ↔ z.toNat = k := by
      rw [← BitVec.toNat_inj, BitVec.toNat_ofNat, Nat.mod_eq_of_lt (by omega)]
    by_cases h : z.toNat = k
    · rw [if_pos (hz.2 h), if_pos (by omega), h]
    · rw [if_neg (fun h' => h (hz.1 h'))]
      by_cases h2 : z.toNat < k
      · rw [if_pos h2, if_pos (by omega)]
      · rw [if_neg h2, if_neg (by omega)]

@[simp] theorem State.regsUpTo_length (x : Nibble) : (s.regsUpTo x).length = x.toNat + 1 := by
  have := x.isLt
  simp only [State.regsUpTo, List.length_take, Vector.length_toList, nregs]
  omega

/-- The block of registers holds V[z] at position z. -/
theorem State.regsUpTo_getD (x z : Nibble) (h : z.toNat ≤ x.toNat) : (s.regsUpTo x).getD z.toNat 0 = s.reg z := by
  have hz := z.isLt
  simp only [State.regsUpTo, State.reg, List.getD]
  rw [List.getElem?_take_of_lt (by omega), List.getElem?_eq_getElem (by simp; omega)]
  simp

@[simp] theorem bcdDigits_length (b : Byte) : (bcdDigits b).length = 3 := rfl

/-- The address of a glyph is five times the whole byte (43_index_memory.md R183). -/
theorem glyphAddress_toNat (b : Byte) : (byteWord b * BitVec.ofNat 16 glyphBytes).toNat = b.toNat * 5 := by
  have := b.isLt
  simp only [byteWord, glyphBytes, BitVec.toNat_mul, BitVec.toNat_setWidth, BitVec.toNat_ofNat]
  omega

/-! ## A skip on a key (45_io_timers.md R211, R212) -/

/-- A register above 15 names no key: the fault. -/
theorem skipOnKey_fault {x : Nibble} (want : Bool) (h : 15 < (s.reg x).toNat) :
    skipOnKey x want s = raise .invalidKeyIndex (s.reg x).toNat s := if_pos h

/-- A register that names a key: a skip iff the key's state is the wanted one. -/
theorem skipOnKey_next {x : Nibble} (want : Bool) (h : ¬ 15 < (s.reg x).toNat) :
    skipOnKey x want s = .next (s.skipIf (s.keyHeld (keySlot (s.reg x)) == want)) := if_neg h

/-! ## Sprites (44_display.md R204) -/

@[simp] theorem State.spriteBytes_length (base n : Nat) : (s.spriteBytes base n).length = n := by
  simp [State.spriteBytes]

theorem State.spriteBytes_getD (base n r : Nat) (h : r < n) :
    (s.spriteBytes base n).getD r 0 = s.readByte (base + r) := by
  simp [State.spriteBytes, List.getD, List.getElem?_range h]

/-- The cells a sprite draws are the cells of the screen a set bit of it covers. -/
theorem State.mem_spriteCells (x y n : Nibble) (px py : Nat) :
    (px, py) ∈ s.spriteCells x y n ↔ px < 64 ∧ py < s.rows ∧ s.spriteCovers x y n px py := by
  unfold State.spriteCells State.spriteCovers
  rw [mem_drawnCells]
  simp only [cols]
  constructor
  · rintro ⟨h1, h2, h3, h4, h5, h6, h7⟩
    simp only [State.spriteBytes_length] at h6
    rw [s.spriteBytes_getD _ _ _ (by omega)] at h7
    exact ⟨h2, h1, py - (s.reg y).toNat % s.rows, px - (s.reg x).toNat % 64, by omega, by omega, by omega,
      by omega, h7⟩
  · rintro ⟨h1, h2, r, c, hr, hc, rfl, rfl, hb⟩
    refine ⟨h2, h1, by omega, by omega, by omega, by simp only [State.spriteBytes_length]; omega, ?_⟩
    rw [s.spriteBytes_getD _ _ _ (by omega)]
    simp only [Nat.add_sub_cancel_left]
    exact hb

@[simp] theorem State.drawSprite_fb (x y n : Nibble) :
    (s.drawSprite x y n).fb = (drawCells s.rows s.fb (s.spriteCells x y n)).1 := rfl

@[simp] theorem State.drawSprite_reg (x y n z : Nibble) :
    (s.drawSprite x y n).reg z =
      if z = 0xF#4 then flagByte (drawCells s.rows s.fb (s.spriteCells x y n)).2 else s.reg z := by
  simp [State.drawSprite]

/-- On a full screen a sprite toggles exactly its cells. -/
theorem State.drawSprite_pixel (x y n : Nibble) (h : s.screenFull) (a b : Nat) :
    (s.drawSprite x y n).pixel a b = (s.pixel a b ^^ decide ((a, b) ∈ s.spriteCells x y n)) :=
  cellAt_drawCells h drawnCells_inRange nodup_drawnCells

/-- On a full screen a sprite collides iff one of its cells was set. -/
theorem State.drawSprite_collision (x y n : Nibble) (h : s.screenFull) :
    (drawCells s.rows s.fb (s.spriteCells x y n)).2 = (s.spriteCells x y n).any fun p => s.pixel p.1 p.2 :=
  drawCells_collision h drawnCells_inRange nodup_drawnCells

/-! ### drawSprite: what stays -/

@[simp] theorem State.drawSprite_cfg (x y n : Nibble) : (s.drawSprite x y n).cfg = s.cfg := rfl
@[simp] theorem State.drawSprite_mem (x y n : Nibble) : (s.drawSprite x y n).mem = s.mem := rfl
@[simp] theorem State.drawSprite_index (x y n : Nibble) : (s.drawSprite x y n).index = s.index := rfl
@[simp] theorem State.drawSprite_pc (x y n : Nibble) : (s.drawSprite x y n).pc = s.pc := rfl
@[simp] theorem State.drawSprite_stack (x y n : Nibble) : (s.drawSprite x y n).stack = s.stack := rfl
@[simp] theorem State.drawSprite_dt (x y n : Nibble) : (s.drawSprite x y n).dt = s.dt := rfl
@[simp] theorem State.drawSprite_st (x y n : Nibble) : (s.drawSprite x y n).st = s.st := rfl
@[simp] theorem State.drawSprite_key (x y n : Nibble) : (s.drawSprite x y n).key = s.key := rfl
@[simp] theorem State.drawSprite_run (x y n : Nibble) : (s.drawSprite x y n).run = s.run := rfl
@[simp] theorem State.drawSprite_pending (x y n : Nibble) : (s.drawSprite x y n).pending = s.pending := rfl
@[simp] theorem State.drawSprite_rndCount (x y n : Nibble) : (s.drawSprite x y n).rndCount = s.rndCount := rfl

@[simp] theorem State.drawSprite_readByte (x y n : Nibble) (z : Nat) : (s.drawSprite x y n).readByte z = s.readByte z := rfl
@[simp] theorem State.drawSprite_keyHeld (x y n : Nibble) (z : Nibble) : (s.drawSprite x y n).keyHeld z = s.keyHeld z := rfl
@[simp] theorem State.drawSprite_depth (x y n : Nibble) : (s.drawSprite x y n).depth = s.depth := rfl
@[simp] theorem State.drawSprite_rows (x y n : Nibble) : (s.drawSprite x y n).rows = s.rows := rfl

/-! ## Fetching (40_engine_operations.md R112, R113) -/

@[simp] theorem State.advance_pc : s.advance.pc = s.pc + 2 := rfl

/-! ### advance: what stays -/

@[simp] theorem State.advance_cfg : (s.advance).cfg = s.cfg := rfl
@[simp] theorem State.advance_mem : (s.advance).mem = s.mem := rfl
@[simp] theorem State.advance_v : (s.advance).v = s.v := rfl
@[simp] theorem State.advance_index : (s.advance).index = s.index := rfl
@[simp] theorem State.advance_stack : (s.advance).stack = s.stack := rfl
@[simp] theorem State.advance_dt : (s.advance).dt = s.dt := rfl
@[simp] theorem State.advance_st : (s.advance).st = s.st := rfl
@[simp] theorem State.advance_fb : (s.advance).fb = s.fb := rfl
@[simp] theorem State.advance_key : (s.advance).key = s.key := rfl
@[simp] theorem State.advance_run : (s.advance).run = s.run := rfl
@[simp] theorem State.advance_pending : (s.advance).pending = s.pending := rfl
@[simp] theorem State.advance_rndCount : (s.advance).rndCount = s.rndCount := rfl

@[simp] theorem State.advance_reg (z : Nibble) : (s.advance).reg z = s.reg z := rfl
@[simp] theorem State.advance_readByte (z : Nat) : (s.advance).readByte z = s.readByte z := rfl
@[simp] theorem State.advance_pixel (z u : Nat) : (s.advance).pixel z u = s.pixel z u := rfl
@[simp] theorem State.advance_keyHeld (z : Nibble) : (s.advance).keyHeld z = s.keyHeld z := rfl
@[simp] theorem State.advance_depth : (s.advance).depth = s.depth := rfl
@[simp] theorem State.advance_rows : (s.advance).rows = s.rows := rfl

/-- A placed word is the word the next fetch reads. -/
theorem State.withFetchWord_fetchWord (nbits w : Nat) :
    (s.withFetchWord nbits w).fetchWord = tableWord nbits w := by
  unfold State.withFetchWord
  generalize (if memSize ≤ s.pc.toNat + 1 then BitVec.ofNat 16 progBase else s.pc) = pc
  simp only [State.fetchWord, State.setPending_pc, State.setRun_pc, State.setPc_pc, State.setPending_readByte,
    State.setRun_readByte, State.setPc_readByte, State.storeBytes_readByte, bytesOfWord, List.length_cons,
    List.length_nil]
  rw [if_pos (by omega), if_pos (by omega), Nat.sub_self, Nat.add_sub_cancel_left]
  exact wordOfBytes_bytesOfWord _

/-! ## The host's operations (40_engine_operations.md R117, R118, R111; 70_reset_and_hazards.md R270) -/

/-- A timer's decrement is floored at 0. -/
theorem tickDown_toNat (b : Byte) : (tickDown b).toNat = b.toNat - 1 := by
  unfold tickDown
  split
  · subst_vars; rfl
  · rename_i h
    have h0 : b.toNat ≠ 0 := fun h' => h (BitVec.eq_of_toNat_eq (by simpa using h'))
    rw [BitVec.toNat_sub_of_le (BitVec.le_def.2 (by simpa using Nat.one_le_iff_ne_zero.2 h0))]
    simp

@[simp] theorem State.tick_dt : s.tick.dt = tickDown s.dt := rfl
@[simp] theorem State.tick_st : s.tick.st = tickDown s.st := rfl

/-! ### tick: what stays -/

@[simp] theorem State.tick_cfg : (s.tick).cfg = s.cfg := rfl
@[simp] theorem State.tick_mem : (s.tick).mem = s.mem := rfl
@[simp] theorem State.tick_v : (s.tick).v = s.v := rfl
@[simp] theorem State.tick_index : (s.tick).index = s.index := rfl
@[simp] theorem State.tick_pc : (s.tick).pc = s.pc := rfl
@[simp] theorem State.tick_stack : (s.tick).stack = s.stack := rfl
@[simp] theorem State.tick_fb : (s.tick).fb = s.fb := rfl
@[simp] theorem State.tick_key : (s.tick).key = s.key := rfl
@[simp] theorem State.tick_run : (s.tick).run = s.run := rfl
@[simp] theorem State.tick_pending : (s.tick).pending = s.pending := rfl
@[simp] theorem State.tick_rndCount : (s.tick).rndCount = s.rndCount := rfl

@[simp] theorem State.tick_reg (z : Nibble) : (s.tick).reg z = s.reg z := rfl
@[simp] theorem State.tick_readByte (z : Nat) : (s.tick).readByte z = s.readByte z := rfl
@[simp] theorem State.tick_pixel (z u : Nat) : (s.tick).pixel z u = s.pixel z u := rfl
@[simp] theorem State.tick_keyHeld (z : Nibble) : (s.tick).keyHeld z = s.keyHeld z := rfl
@[simp] theorem State.tick_depth : (s.tick).depth = s.depth := rfl
@[simp] theorem State.tick_rows : (s.tick).rows = s.rows := rfl

/-- What resolving a wait can do: write the key into the target register and resume, or nothing. -/
theorem State.resolveWait_cases (k : Nibble) :
    (∃ t, s.run = .waitingForKeyPress t ∧ s.resolveWait k = (s.setReg t (k.setWidth 8)).setRun .running) ∨
      ((∀ t, s.run ≠ .waitingForKeyPress t) ∧ s.resolveWait k = s) := by
  unfold State.resolveWait
  cases h : s.run with
  | waitingForKeyPress t => exact .inl ⟨t, rfl, rfl⟩
  | notStarted => exact .inr ⟨by simp, rfl⟩
  | running => exact .inr ⟨by simp, rfl⟩
  | paused => exact .inr ⟨by simp, rfl⟩
  | halted cause fpc info => exact .inr ⟨by simp, rfl⟩

/-! ### pressKey: what stays -/

@[simp] theorem State.pressKey_cfg (k : Nibble) (b : Bool) : (s.pressKey k b).cfg = s.cfg := by
  cases b with
  | false => rfl
  | true =>
    simp only [State.pressKey, if_true]
    rcases (s.setKey k true).resolveWait_cases k with ⟨t, -, h⟩ | ⟨-, h⟩ <;> simp [h]
@[simp] theorem State.pressKey_mem (k : Nibble) (b : Bool) : (s.pressKey k b).mem = s.mem := by
  cases b with
  | false => rfl
  | true =>
    simp only [State.pressKey, if_true]
    rcases (s.setKey k true).resolveWait_cases k with ⟨t, -, h⟩ | ⟨-, h⟩ <;> simp [h]
@[simp] theorem State.pressKey_index (k : Nibble) (b : Bool) : (s.pressKey k b).index = s.index := by
  cases b with
  | false => rfl
  | true =>
    simp only [State.pressKey, if_true]
    rcases (s.setKey k true).resolveWait_cases k with ⟨t, -, h⟩ | ⟨-, h⟩ <;> simp [h]
@[simp] theorem State.pressKey_pc (k : Nibble) (b : Bool) : (s.pressKey k b).pc = s.pc := by
  cases b with
  | false => rfl
  | true =>
    simp only [State.pressKey, if_true]
    rcases (s.setKey k true).resolveWait_cases k with ⟨t, -, h⟩ | ⟨-, h⟩ <;> simp [h]
@[simp] theorem State.pressKey_stack (k : Nibble) (b : Bool) : (s.pressKey k b).stack = s.stack := by
  cases b with
  | false => rfl
  | true =>
    simp only [State.pressKey, if_true]
    rcases (s.setKey k true).resolveWait_cases k with ⟨t, -, h⟩ | ⟨-, h⟩ <;> simp [h]
@[simp] theorem State.pressKey_dt (k : Nibble) (b : Bool) : (s.pressKey k b).dt = s.dt := by
  cases b with
  | false => rfl
  | true =>
    simp only [State.pressKey, if_true]
    rcases (s.setKey k true).resolveWait_cases k with ⟨t, -, h⟩ | ⟨-, h⟩ <;> simp [h]
@[simp] theorem State.pressKey_st (k : Nibble) (b : Bool) : (s.pressKey k b).st = s.st := by
  cases b with
  | false => rfl
  | true =>
    simp only [State.pressKey, if_true]
    rcases (s.setKey k true).resolveWait_cases k with ⟨t, -, h⟩ | ⟨-, h⟩ <;> simp [h]
@[simp] theorem State.pressKey_fb (k : Nibble) (b : Bool) : (s.pressKey k b).fb = s.fb := by
  cases b with
  | false => rfl
  | true =>
    simp only [State.pressKey, if_true]
    rcases (s.setKey k true).resolveWait_cases k with ⟨t, -, h⟩ | ⟨-, h⟩ <;> simp [h]
@[simp] theorem State.pressKey_pending (k : Nibble) (b : Bool) : (s.pressKey k b).pending = s.pending := by
  cases b with
  | false => rfl
  | true =>
    simp only [State.pressKey, if_true]
    rcases (s.setKey k true).resolveWait_cases k with ⟨t, -, h⟩ | ⟨-, h⟩ <;> simp [h]
@[simp] theorem State.pressKey_rndCount (k : Nibble) (b : Bool) : (s.pressKey k b).rndCount = s.rndCount := by
  cases b with
  | false => rfl
  | true =>
    simp only [State.pressKey, if_true]
    rcases (s.setKey k true).resolveWait_cases k with ⟨t, -, h⟩ | ⟨-, h⟩ <;> simp [h]

@[simp] theorem State.pressKey_readByte (k : Nibble) (b : Bool) (z : Nat) : (s.pressKey k b).readByte z = s.readByte z := by
  cases b with
  | false => rfl
  | true =>
    simp only [State.pressKey, if_true]
    rcases (s.setKey k true).resolveWait_cases k with ⟨t, -, h⟩ | ⟨-, h⟩ <;> simp [h]
@[simp] theorem State.pressKey_pixel (k : Nibble) (b : Bool) (z u : Nat) : (s.pressKey k b).pixel z u = s.pixel z u := by
  cases b with
  | false => rfl
  | true =>
    simp only [State.pressKey, if_true]
    rcases (s.setKey k true).resolveWait_cases k with ⟨t, -, h⟩ | ⟨-, h⟩ <;> simp [h]
@[simp] theorem State.pressKey_depth (k : Nibble) (b : Bool) : (s.pressKey k b).depth = s.depth := by
  cases b with
  | false => rfl
  | true =>
    simp only [State.pressKey, if_true]
    rcases (s.setKey k true).resolveWait_cases k with ⟨t, -, h⟩ | ⟨-, h⟩ <;> simp [h]
@[simp] theorem State.pressKey_rows (k : Nibble) (b : Bool) : (s.pressKey k b).rows = s.rows := by
  cases b with
  | false => rfl
  | true =>
    simp only [State.pressKey, if_true]
    rcases (s.setKey k true).resolveWait_cases k with ⟨t, -, h⟩ | ⟨-, h⟩ <;> simp [h]

@[simp] theorem State.pressKey_keyHeld (k : Nibble) (b : Bool) (z : Nibble) :
    (s.pressKey k b).keyHeld z = if z = k then b else s.keyHeld z := by
  cases b with
  | false => simp [State.pressKey]
  | true =>
    simp only [State.pressKey, if_true]
    rcases (s.setKey k true).resolveWait_cases k with ⟨t, -, h⟩ | ⟨-, h⟩ <;> simp [h]

/-- What LOAD leaves, field by field (40_engine_operations.md R111). -/
theorem State.loadProgram_fields (bytes : List Byte) :
    (s.loadProgram bytes).cfg = s.cfg ∧
    (s.loadProgram bytes).mem = Memory.writeBytes s.cfg s.mem progBase (bytes.take progMax) ∧
    (s.loadProgram bytes).pc = 0x200 ∧ (s.loadProgram bytes).run = .running ∧
    (s.loadProgram bytes).fb = s.fb ∧ (s.loadProgram bytes).key = s.key ∧
    (s.loadProgram bytes).pending = s.pending ∧ (s.loadProgram bytes).rndCount = s.rndCount ∧
    (s.loadProgram bytes).v = (if s.cfg.loadResetsCpu then Vector.replicate nregs 0 else s.v) ∧
    (s.loadProgram bytes).index = (if s.cfg.loadResetsCpu then 0 else s.index) ∧
    (s.loadProgram bytes).stack = (if s.cfg.loadResetsCpu then [] else s.stack) ∧
    (s.loadProgram bytes).dt = (if s.cfg.loadResetsCpu then 0 else s.dt) ∧
    (s.loadProgram bytes).st = (if s.cfg.loadResetsCpu then 0 else s.st) := by
  unfold State.loadProgram
  cases s.cfg.loadResetsCpu <;> exact ⟨rfl, rfl, rfl, rfl, rfl, rfl, rfl, rfl, rfl, rfl, rfl, rfl, rfl⟩

/-- A cycle outside `Running` changes nothing (40_engine_operations.md R112). -/
theorem cycle_idle (h : s.run ≠ .running) : cycle s = .next s := if_neg h

end Sys2Proof.Machine
end

