-- ==== Sys2Proof/Laws/PerInstr.lean ====
section
/-! SUPPORT. Per instruction: the word an instruction encodes to is selected by its own row of the opcode map
(30_encoding.md R94). -/
namespace Sys2Proof.Laws.TableRow

/-- The encoded word satisfies `(op and mask) == match` for the instruction's row, and the row is in the map. A no-op
stands in no row; when it is well-formed, no row of the map selects its word (30_encoding.md R97). -/
def Statement (i : Instr) : Prop :=
  (∀ r, i.row = some r → r ∈ opcodeRows ∧ r.selects (encode i) = true) ∧
    (i.row = none → i.wellFormed = true → isListed (encode i) = false)

/-! The rows of each format (30_encoding.md R92). -/

theorem selects_top (op : Word) (t : Nibble) :
    OpcodeRow.selects ⟨0xF000#16, t ++ 0#12⟩ op = decide (fieldTop op = t) := by
  rw [Bool.eq_iff_iff, decide_eq_true_iff, ← mask_top_iff]
  exact beq_iff_eq

theorem selects_top_n (op : Word) (t n : Nibble) :
    OpcodeRow.selects ⟨0xF00F#16, t ++ 0#4 ++ 0#4 ++ n⟩ op = decide (fieldTop op = t ∧ fieldN op = n) := by
  rw [Bool.eq_iff_iff, decide_eq_true_iff, ← mask_top_n_iff]
  exact beq_iff_eq

theorem selects_top_nn (op : Word) (t : Nibble) (nn : Byte) :
    OpcodeRow.selects ⟨0xF0FF#16, t ++ 0#4 ++ nn⟩ op = decide (fieldTop op = t ∧ fieldNN op = nn) := by
  rw [Bool.eq_iff_iff, decide_eq_true_iff, ← mask_top_nn_iff]
  exact beq_iff_eq

/-- An instruction with a row has the statement when its row is in the map and selects its word. -/
theorem of_row {i : Instr} {r : OpcodeRow} (hr : i.row = some r) (hmem : r ∈ opcodeRows)
    (hsel : r.selects (encode i) = true) : Statement i := by
  refine ⟨fun r' h => ?_, fun h => ?_⟩
  · rw [hr, Option.some.injEq] at h
    exact h ▸ ⟨hmem, hsel⟩
  · simp [hr] at h

theorem cls : Statement .cls := of_row rfl (by decide) (by decide)

theorem ret : Statement .ret := of_row rfl (by decide) (by decide)

theorem jp (nnn : Addr) : Statement (.jp nnn) :=
  of_row rfl (by decide) ((selects_top _ 0x1#4).trans (by simp [encode]))

theorem call (nnn : Addr) : Statement (.call nnn) :=
  of_row rfl (by decide) ((selects_top _ 0x2#4).trans (by simp [encode]))

theorem seImm (x : Nibble) (nn : Byte) : Statement (.seImm x nn) :=
  of_row rfl (by decide) ((selects_top _ 0x3#4).trans (by simp [encode]))

theorem sneImm (x : Nibble) (nn : Byte) : Statement (.sneImm x nn) :=
  of_row rfl (by decide) ((selects_top _ 0x4#4).trans (by simp [encode]))

theorem seReg (x y : Nibble) : Statement (.seReg x y) :=
  of_row rfl (by decide) ((selects_top_n _ 0x5#4 0x0#4).trans (by simp [encode]))

theorem ldImm (x : Nibble) (nn : Byte) : Statement (.ldImm x nn) :=
  of_row rfl (by decide) ((selects_top _ 0x6#4).trans (by simp [encode]))

theorem addImm (x : Nibble) (nn : Byte) : Statement (.addImm x nn) :=
  of_row rfl (by decide) ((selects_top _ 0x7#4).trans (by simp [encode]))

theorem ldReg (x y : Nibble) : Statement (.ldReg x y) :=
  of_row rfl (by decide) ((selects_top_n _ 0x8#4 0x0#4).trans (by simp [encode]))

theorem orReg (x y : Nibble) : Statement (.orReg x y) :=
  of_row rfl (by decide) ((selects_top_n _ 0x8#4 0x1#4).trans (by simp [encode]))

theorem andReg (x y : Nibble) : Statement (.andReg x y) :=
  of_row rfl (by decide) ((selects_top_n _ 0x8#4 0x2#4).trans (by simp [encode]))

theorem xorReg (x y : Nibble) : Statement (.xorReg x y) :=
  of_row rfl (by decide) ((selects_top_n _ 0x8#4 0x3#4).trans (by simp [encode]))

theorem addReg (x y : Nibble) : Statement (.addReg x y) :=
  of_row rfl (by decide) ((selects_top_n _ 0x8#4 0x4#4).trans (by simp [encode]))

theorem subReg (x y : Nibble) : Statement (.subReg x y) :=
  of_row rfl (by decide) ((selects_top_n _ 0x8#4 0x5#4).trans (by simp [encode]))

theorem shr (x y : Nibble) : Statement (.shr x y) :=
  of_row rfl (by decide) ((selects_top_n _ 0x8#4 0x6#4).trans (by simp [encode]))

theorem subn (x y : Nibble) : Statement (.subn x y) :=
  of_row rfl (by decide) ((selects_top_n _ 0x8#4 0x7#4).trans (by simp [encode]))

theorem shl (x y : Nibble) : Statement (.shl x y) :=
  of_row rfl (by decide) ((selects_top_n _ 0x8#4 0xE#4).trans (by simp [encode]))

theorem sneReg (x y : Nibble) : Statement (.sneReg x y) :=
  of_row rfl (by decide) ((selects_top_n _ 0x9#4 0x0#4).trans (by simp [encode]))

theorem ldI (nnn : Addr) : Statement (.ldI nnn) :=
  of_row rfl (by decide) ((selects_top _ 0xA#4).trans (by simp [encode]))

theorem ldIV0 (nnn : Addr) : Statement (.ldIV0 nnn) :=
  of_row rfl (by decide) ((selects_top _ 0xB#4).trans (by simp [encode]))

theorem rnd (x : Nibble) (nn : Byte) : Statement (.rnd x nn) :=
  of_row rfl (by decide) ((selects_top _ 0xC#4).trans (by simp [encode]))

theorem drw (x y n : Nibble) : Statement (.drw x y n) :=
  of_row rfl (by decide) ((selects_top _ 0xD#4).trans (by simp [encode]))

theorem skp (x : Nibble) : Statement (.skp x) :=
  of_row rfl (by decide) ((selects_top_nn _ 0xE#4 0x9E#8).trans (by simp [encode]))

theorem sknp (x : Nibble) : Statement (.sknp x) :=
  of_row rfl (by decide) ((selects_top_nn _ 0xE#4 0xA1#8).trans (by simp [encode]))

theorem ldVxDT (x : Nibble) : Statement (.ldVxDT x) :=
  of_row rfl (by decide) ((selects_top_nn _ 0xF#4 0x07#8).trans (by simp [encode]))

theorem ldVxK (x : Nibble) : Statement (.ldVxK x) :=
  of_row rfl (by decide) ((selects_top_nn _ 0xF#4 0x0A#8).trans (by simp [encode]))

theorem ldDTVx (x : Nibble) : Statement (.ldDTVx x) :=
  of_row rfl (by decide) ((selects_top_nn _ 0xF#4 0x15#8).trans (by simp [encode]))

theorem ldSTVx (x : Nibble) : Statement (.ldSTVx x) :=
  of_row rfl (by decide) ((selects_top_nn _ 0xF#4 0x18#8).trans (by simp [encode]))

theorem addI (x : Nibble) : Statement (.addI x) :=
  of_row rfl (by decide) ((selects_top_nn _ 0xF#4 0x1E#8).trans (by simp [encode]))

theorem ldF (x : Nibble) : Statement (.ldF x) :=
  of_row rfl (by decide) ((selects_top_nn _ 0xF#4 0x29#8).trans (by simp [encode]))

theorem ldB (x : Nibble) : Statement (.ldB x) :=
  of_row rfl (by decide) ((selects_top_nn _ 0xF#4 0x33#8).trans (by simp [encode]))

theorem storeRegs (x : Nibble) : Statement (.storeRegs x) :=
  of_row rfl (by decide) ((selects_top_nn _ 0xF#4 0x55#8).trans (by simp [encode]))

theorem loadRegs (x : Nibble) : Statement (.loadRegs x) :=
  of_row rfl (by decide) ((selects_top_nn _ 0xF#4 0x65#8).trans (by simp [encode]))

theorem nop (w : Word) : Statement (.nop w) :=
  ⟨fun _ h => by simp [Instr.row] at h, fun _ h => by simpa [Instr.wellFormed, encode] using h⟩

end Sys2Proof.Laws.TableRow
end

