-- ==== Sys2Proof/Tests/Slice0.lean ====
section
/-! SUPPORT. Tests of our own: ill-formed terms, the words of the spec's encoding, one step of each instruction on the
spec's test vectors (95_test_vectors.md, named T and S), the host's operations, and for every statement with
hypotheses a state and operands that meet them. -/
namespace Sys2Proof.Tests
open Sys2Proof Sys2Proof.Machine

/-! ## Helpers -/

/-- The clean launch with the word `op` at 0x200 (70_reset_and_hazards.md R276). -/
def launched (op : Word) : State := State.reset.loadProgram (bytesOfWord op)

/-- Running, with the word `op` at `pc`. -/
def launchedAt (pc op : Word) : State := ((launched 0).storeBytes pc.toNat (bytesOfWord op)).setPc pc

/-- A check of the state one step later. -/
def passes (s : State) (check : State → Bool) : Bool :=
  match step s with
  | .next t => check t
  | .fault _ => false
  | .refused _ => false

/-- A step from `s` halts with this record, pc being `pc` then. -/
def faults (s : State) (cause : FaultCause) (fpc : Word) (info : Nat) (pc : Word) : Bool :=
  passes s fun t => t.run == .halted cause fpc info && t.pc == pc

/-- The state after one step. -/
def after (s : State) : State :=
  match step s with
  | .next t => t
  | .fault _ => s
  | .refused _ => s

/-- A state that waits for a key into V2. -/
def waiting : State := (launched 0xF20A).setRun (.waitingForKeyPress 2)

/-- A stack of `n` saved pcs. -/
def calls (n : Nat) (s : State) : State := s.setStack (List.replicate n 0x202)

/-- An engine of 64 rows that shifts Vy, keeps its registers at a LOAD and saves one pc. -/
def otherConfig : Config where
  screen := .rows64
  stackDepth := 1
  shiftUsesVy := true
  loadResetsCpu := false
  font := defaultFont

/-- The clean launch of that engine. -/
def launchedOther (op : Word) : State := (State.construct otherConfig).loadProgram (bytesOfWord op)

/-! ## The parameters of 00_scope.md R5 -/

theorem test_parameter_widths :
    Byte = BitVec regBits ∧ Byte = BitVec timerBits ∧ Word = BitVec indexBits ∧ Word = BitVec pcBits :=
  ⟨rfl, rfl, rfl, rfl⟩

theorem test_parameter_values :
    fontLen = 80 ∧ progMax = 3584 ∧ fontBase + fontLen = 0x050 ∧ flagReg.toNat = 15 := by decide

/-! ## Ill-formed terms

The one check of WellFormed: a no-op carries no listed word. Every other constructor's fields are of their own width. -/

theorem test_nop_of_cls_ill_formed : (Instr.nop 0x00E0).wellFormed = false := by decide
theorem test_nop_of_jp_ill_formed : (Instr.nop 0x1234).wellFormed = false := by decide
theorem test_nop_of_add_ill_formed : (Instr.nop 0x8004).wellFormed = false := by decide
theorem test_nop_of_skp_ill_formed : (Instr.nop 0xE19E).wellFormed = false := by decide
theorem test_nop_of_loadRegs_ill_formed : (Instr.nop 0xFF65).wellFormed = false := by decide
theorem test_nop_unlisted_well_formed :
    ([0x0000, 0x01E0, 0x5121, 0x8128, 0x9121, 0xE100, 0xF1FF].all fun w => (Instr.nop w).wellFormed) = true := by
  decide

/-! ## The words of the encoding, bit by bit (30_encoding.md R91, R94)

The fields are x = 1010, y = 0101, n = 0111, nn = 11000011, nnn = 101011000011. -/

theorem test_decode_cls : decode 0b0000_0000_1110_0000#16 = .cls := by decide
theorem test_decode_ret : decode 0b0000_0000_1110_1110#16 = .ret := by decide
theorem test_decode_jp : decode 0b0001_1010_1100_0011#16 = .jp 0xAC3 := by decide
theorem test_decode_call : decode 0b0010_1010_1100_0011#16 = .call 0xAC3 := by decide
theorem test_decode_seImm : decode 0b0011_1010_1100_0011#16 = .seImm 0xA 0xC3 := by decide
theorem test_decode_sneImm : decode 0b0100_1010_1100_0011#16 = .sneImm 0xA 0xC3 := by decide
theorem test_decode_seReg : decode 0b0101_1010_0101_0000#16 = .seReg 0xA 0x5 := by decide
theorem test_decode_ldImm : decode 0b0110_1010_1100_0011#16 = .ldImm 0xA 0xC3 := by decide
theorem test_decode_addImm : decode 0b0111_1010_1100_0011#16 = .addImm 0xA 0xC3 := by decide
theorem test_decode_ldReg : decode 0b1000_1010_0101_0000#16 = .ldReg 0xA 0x5 := by decide
theorem test_decode_orReg : decode 0b1000_1010_0101_0001#16 = .orReg 0xA 0x5 := by decide
theorem test_decode_andReg : decode 0b1000_1010_0101_0010#16 = .andReg 0xA 0x5 := by decide
theorem test_decode_xorReg : decode 0b1000_1010_0101_0011#16 = .xorReg 0xA 0x5 := by decide
theorem test_decode_addReg : decode 0b1000_1010_0101_0100#16 = .addReg 0xA 0x5 := by decide
theorem test_decode_subReg : decode 0b1000_1010_0101_0101#16 = .subReg 0xA 0x5 := by decide
theorem test_decode_shr : decode 0b1000_1010_0101_0110#16 = .shr 0xA 0x5 := by decide
theorem test_decode_subn : decode 0b1000_1010_0101_0111#16 = .subn 0xA 0x5 := by decide
theorem test_decode_shl : decode 0b1000_1010_0101_1110#16 = .shl 0xA 0x5 := by decide
theorem test_decode_sneReg : decode 0b1001_1010_0101_0000#16 = .sneReg 0xA 0x5 := by decide
theorem test_decode_ldI : decode 0b1010_1010_1100_0011#16 = .ldI 0xAC3 := by decide
theorem test_decode_ldIV0 : decode 0b1011_1010_1100_0011#16 = .ldIV0 0xAC3 := by decide
theorem test_decode_rnd : decode 0b1100_1010_1100_0011#16 = .rnd 0xA 0xC3 := by decide
theorem test_decode_drw : decode 0b1101_1010_0101_0111#16 = .drw 0xA 0x5 0x7 := by decide
theorem test_decode_skp : decode 0b1110_1010_1001_1110#16 = .skp 0xA := by decide
theorem test_decode_sknp : decode 0b1110_1010_1010_0001#16 = .sknp 0xA := by decide
theorem test_decode_ldVxDT : decode 0b1111_1010_0000_0111#16 = .ldVxDT 0xA := by decide
theorem test_decode_ldVxK : decode 0b1111_1010_0000_1010#16 = .ldVxK 0xA := by decide
theorem test_decode_ldDTVx : decode 0b1111_1010_0001_0101#16 = .ldDTVx 0xA := by decide
theorem test_decode_ldSTVx : decode 0b1111_1010_0001_1000#16 = .ldSTVx 0xA := by decide
theorem test_decode_addI : decode 0b1111_1010_0001_1110#16 = .addI 0xA := by decide
theorem test_decode_ldF : decode 0b1111_1010_0010_1001#16 = .ldF 0xA := by decide
theorem test_decode_ldB : decode 0b1111_1010_0011_0011#16 = .ldB 0xA := by decide
theorem test_decode_storeRegs : decode 0b1111_1010_0101_0101#16 = .storeRegs 0xA := by decide
theorem test_decode_loadRegs : decode 0b1111_1010_0110_0101#16 = .loadRegs 0xA := by decide
-- T11 to T17: the words that are no instruction.
theorem test_decode_nop :
    ([0x0000, 0x00E1, 0x00EF, 0x01E0, 0x0123, 0x0FFF, 0x5121, 0x512F, 0x9121, 0x8128, 0x812F, 0xE100, 0xE19F,
      0xE1A0, 0xF100, 0xF108, 0xF130, 0xF175, 0xF1FF].all fun w => decode w == .nop w) = true := by decide
-- T2: the fields of 0xD5A7.
theorem test_fields :
    fieldX 0xD5A7 = 5 ∧ fieldY 0xD5A7 = 0xA ∧ fieldN 0xD5A7 = 7 ∧ fieldNN 0xD5A7 = 0xA7 ∧ fieldNNN 0xD5A7 = 0x5A7 := by
  decide
-- T1: the byte at the lower address is the high byte.
theorem test_decodeBytes_big_endian : decodeBytes [0x12, 0x34, 0x56] = .ok (.jp 0x234, [0x56]) := rfl
theorem test_decodeBytes_truncated :
    decodeBytes [] = .error .truncated ∧ decodeBytes [0x12] = .error .truncated := ⟨rfl, rfl⟩
theorem test_encode_words :
    encode (.drw 5 0xA 7) = 0xD5A7 ∧ encode (.sneReg 1 2) = 0x9120 ∧ encode (.ldB 0xA) = 0xFA33 ∧
      encode (.nop 0x8128) = 0x8128 := by decide
theorem test_decodeTableWord : decodeTableWord 16 0x8124 = some (.addReg 1 2) ∧ decodeTableWord 16 0 = some (.nop 0) := by
  decide
theorem test_withFetchWord_runs :
    passes (State.reset.withFetchWord 16 0x6A3C) (fun t => t.reg 0xA == 0x3C && t.pc == 0x202) = true := by decide

/-! ## The cycle -/

-- T5, T6, T7: the last word of memory, and the fetch faults past it.
theorem test_fetch_last_word : passes (launchedAt 0xFFE 0x0000) (fun t => t.pc == 0x1000 && t.run == .running) = true := by
  decide
theorem test_fetch_fault_1000 :
    faults ((launched 0).setPc 0x1000) .outOfBoundsMemoryAccess 0x1000 0x1000 0x1000 = true := by decide
theorem test_fetch_fault_fff :
    faults ((launched 0).setPc 0xFFF) .outOfBoundsMemoryAccess 0xFFF 0x1000 0xFFF = true := by decide
-- T3, T4: no effect outside Running.
theorem test_idle_not_started : step State.reset = .next State.reset := by rw [step, nextOperation]; rfl
-- T8: an odd pc fetches like any other.
theorem test_fetch_odd : passes (launchedAt 0x203 0x602A) (fun t => t.reg 0 == 0x2A && t.pc == 0x205) = true := by decide

/-! ## Control transfer: T20 to T40 -/

theorem test_jp : passes (launched 0x1ABC) (fun t => t.pc == 0xABC) = true := by decide
theorem test_call : passes (launched 0x2300) (fun t => t.stack == [0x202] && t.pc == 0x300) = true := by decide
theorem test_call_overflow :
    passes (calls 16 (launched 0x2300))
      (fun t => t.run == .halted .stackOverflow 0x200 0x300 && t.depth == 16 && t.pc == 0x202) = true := by decide
theorem test_ret : passes (calls 1 (launchedAt 0x300 0x00EE)) (fun t => t.pc == 0x202 && t.stack == []) = true := by decide
theorem test_ret_empty :
    passes (launched 0x00EE) (fun t => t.pc == 0x202 && t.run == .running &&
      cycleResult (launched 0x00EE) t == .executedWithDiagnostic .emptyStackReturn) = true := by decide
theorem test_seImm_taken : passes ((launched 0x3111).setReg 1 0x11) (fun t => t.pc == 0x204) = true := by decide
theorem test_seImm_not : passes ((launched 0x3112).setReg 1 0x11) (fun t => t.pc == 0x202) = true := by decide
theorem test_sneImm_not : passes ((launched 0x4111).setReg 1 0x11) (fun t => t.pc == 0x202) = true := by decide
theorem test_sneImm_taken : passes ((launched 0x4112).setReg 1 0x11) (fun t => t.pc == 0x204) = true := by decide
theorem test_seReg_not :
    passes (((launched 0x5120).setReg 1 3).setReg 2 4) (fun t => t.pc == 0x202) = true := by decide
theorem test_seReg_same : passes (launched 0x5110) (fun t => t.pc == 0x204) = true := by decide
theorem test_sneReg_taken :
    passes (((launched 0x9120).setReg 1 3).setReg 2 4) (fun t => t.pc == 0x204) = true := by decide
theorem test_sneReg_same : passes (launched 0x9110) (fun t => t.pc == 0x202) = true := by decide
theorem test_nop : passes (launched 0x8128) (fun t => t == (launched 0x8128).setPc 0x202) = true := by decide

/-! ## Register load and the ALU: T50 to T86, S1 to S3 -/

theorem test_ldImm_vf : passes (launched 0x6FAB) (fun t => t.reg 0xF == 0xAB && t.reg 0 == 0) = true := by decide
theorem test_addImm_no_flag :
    passes ((launched 0x7001).setReg 0 0xFF) (fun t => t.reg 0 == 0 && t.reg 0xF == 0) = true := by decide
theorem test_ldReg :
    passes (((launched 0x8120).setReg 1 7).setReg 2 9) (fun t => t.reg 1 == 9 && t.reg 2 == 9) = true := by decide
theorem test_orReg :
    passes ((((launched 0x8121).setReg 1 0x0F).setReg 2 0xF0).setReg 0xF 1)
      (fun t => t.reg 1 == 0xFF && t.reg 0xF == 1) = true := by decide
theorem test_andReg :
    passes ((((launched 0x8122).setReg 1 0x3C).setReg 2 0x0F).setReg 0xF 1)
      (fun t => t.reg 1 == 0x0C && t.reg 0xF == 1) = true := by decide
theorem test_xorReg :
    passes ((((launched 0x8123).setReg 1 0xFF).setReg 2 0x0F).setReg 0xF 1)
      (fun t => t.reg 1 == 0xF0 && t.reg 0xF == 1) = true := by decide
theorem test_addReg_carry :
    passes (((launched 0x8124).setReg 1 200).setReg 2 100) (fun t => t.reg 1 == 44 && t.reg 0xF == 1) = true := by decide
theorem test_addReg_vf_destination :
    passes (((launched 0x8F14).setReg 0xF 200).setReg 1 100) (fun t => t.reg 0xF == 1) = true := by decide
theorem test_subReg_borrow :
    passes (((launched 0x8125).setReg 1 10).setReg 2 20) (fun t => t.reg 1 == 246 && t.reg 0xF == 0) = true := by decide
theorem test_subReg_vf_subtrahend :
    passes (((launched 0x81F5).setReg 1 10).setReg 0xF 20) (fun t => t.reg 1 == 246 && t.reg 0xF == 0) = true := by decide
theorem test_shr_keeps_vy :
    passes (((launched 0x8126).setReg 1 5).setReg 2 0xFE)
      (fun t => t.reg 1 == 2 && t.reg 2 == 0xFE && t.reg 0xF == 1) = true := by decide
theorem test_shr_uses_vy :
    passes (((launchedOther 0x8126).setReg 1 4).setReg 2 0xFF) (fun t => t.reg 1 == 0x7F && t.reg 0xF == 1) = true := by
  decide
theorem test_subn :
    passes (((launched 0x8127).setReg 1 20).setReg 2 10) (fun t => t.reg 1 == 246 && t.reg 0xF == 0) = true := by decide
theorem test_subn_equal :
    passes (((launched 0x8127).setReg 1 9).setReg 2 9) (fun t => t.reg 1 == 0 && t.reg 0xF == 1) = true := by decide
theorem test_shl : passes ((launched 0x810E).setReg 1 0x81) (fun t => t.reg 1 == 0x02 && t.reg 0xF == 1) = true := by
  decide
theorem test_shl_vf : passes ((launched 0x8F0E).setReg 0xF 0x7F) (fun t => t.reg 0xF == 0) = true := by decide

/-! ## Index register and memory: T90 to T112 -/

theorem test_ldI : passes (launched 0xA123) (fun t => t.index == 0x0123) = true := by decide
theorem test_ldIV0 :
    passes ((launched 0xBFFF).setReg 0 0xFF) (fun t => t.index == 0x10FE && t.pc == 0x202) = true := by decide
theorem test_addI_wraps :
    passes (((launched 0xF11E).setIndex 0xFFFF).setReg 1 2) (fun t => t.index == 1 && t.reg 0xF == 0) = true := by decide
theorem test_addI_past_12_bits :
    passes (((launched 0xF11E).setIndex 0x0FFF).setReg 1 1) (fun t => t.index == 0x1000) = true := by decide
theorem test_ldF : passes ((launched 0xF129).setReg 1 0xFF) (fun t => t.index == 0x4FB) = true := by decide
theorem test_ldB :
    passes (((launched 0xF033).setIndex 0xFFD).setReg 0 123)
      (fun t => t.readByte 0xFFD == 1 && t.readByte 0xFFE == 2 && t.readByte 0xFFF == 3) = true := by decide
theorem test_ldB_fault :
    faults (((launched 0xF033).setIndex 0x10FE).setReg 0 1) .outOfBoundsMemoryAccess 0x200 0x10FE 0x202 = true := by
  decide
theorem test_storeRegs :
    passes (((((launched 0xF255).setIndex 0x300).setReg 0 1).setReg 1 2).setReg 2 3)
      (fun t => t.readByte 0x300 == 1 && t.readByte 0x301 == 2 && t.readByte 0x302 == 3 && t.index == 0x300) = true := by
  decide
theorem test_storeRegs_fault :
    passes (((launched 0xFF55).setIndex 0xFF1).setReg 0 1)
      (fun t => t.run == .halted .outOfBoundsMemoryAccess 0x200 0x1000 && t.readByte 0xFF1 == 0) = true := by decide
theorem test_loadRegs :
    passes ((((launched 0xF265).storeBytes 0x300 [2, 5, 4]).setIndex 0x300).setReg 3 0x77)
      (fun t => t.reg 0 == 2 && t.reg 1 == 5 && t.reg 2 == 4 && t.reg 3 == 0x77 && t.index == 0x300) = true := by decide
theorem test_loadRegs_fault :
    faults ((launched 0xF165).setIndex 0xFFF) .outOfBoundsMemoryAccess 0x200 0x1000 0x202 = true := by decide

/-! ## Display: T120 to T139 -/

/-- A state about to draw the one byte `b` at (V0, V1) = (`x`, `y`). -/
def drawing (s : State) (b x y : Byte) : State :=
  (((s.storeBytes 0x300 [b]).setIndex 0x300).setReg 0 x).setReg 1 y

-- T124: column 63 only, clipped and not wrapped.
theorem test_drw_clips :
    passes (drawing (launched 0xD011) 0xC0 63 0)
      (fun t => t.pixel 63 0 && !t.pixel 0 0 && !t.pixel 0 1 && t.reg 0xF == 0) = true := by decide
-- T129: a partial collision.
theorem test_drw_collides :
    passes ((drawing (launched 0xD011) 0xC0 0 0).setFb (setCellAt (blankScreen 32) 1 0 true))
      (fun t => t.pixel 0 0 && !t.pixel 1 0 && t.reg 0xF == 1) = true := by decide
-- T134: all the bytes are checked, those of clipped rows too.
theorem test_drw_fault :
    faults (((launched 0xD012).setIndex 0xFFF).setReg 1 31) .outOfBoundsMemoryAccess 0x200 0x1000 0x202 = true := by decide
-- T127, T139: the origin wraps, by the engine's own number of rows.
theorem test_drw_origin :
    passes (drawing (launched 0xD011) 0x80 255 255) (fun t => t.pixel 63 31) = true ∧
    passes (drawing (launchedOther 0xD011) 0x80 0 40) (fun t => t.pixel 0 40) = true := by decide
-- T138.
theorem test_cls :
    passes (((launched 0x00E0).setFb (setCellAt (blankScreen 32) 1 0 true)).setReg 0xF 1)
      (fun t => !t.pixel 1 0 && t.reg 0xF == 1) = true := by decide

/-! ## Random, keys, timers: T150 to T171 -/

theorem test_rnd_mask : ((launched 0xC10F).maskRandom 1 0x0F 0xAB).reg 1 = 0x0B := by decide
theorem test_skp :
    passes (((launched 0xE19E).setReg 1 0x0F).setKey 15 true) (fun t => t.pc == 0x204) = true := by decide
theorem test_skp_fault :
    faults ((launched 0xE19E).setReg 1 0x15) .invalidKeyIndex 0x200 0x15 0x202 = true := by decide
theorem test_sknp :
    passes (((launched 0xE1A1).setReg 1 5).setKey 5 true) (fun t => t.pc == 0x202) = true := by decide
theorem test_sknp_fault : faults ((launched 0xE1A1).setReg 1 0x10) .invalidKeyIndex 0x200 0x10 0x202 = true := by decide
theorem test_ldVxDT :
    passes ((launched 0xF107).setDt 0x2A) (fun t => t.reg 1 == 0x2A && t.dt == 0x2A) = true := by decide
theorem test_ldVxK :
    passes (launched 0xF20A) (fun t => t.run == .waitingForKeyPress 2 && t.pc == 0x202 && t.reg 2 == 0) = true := by decide
theorem test_ldDTVx : passes ((launched 0xF015).setReg 0 60) (fun t => t.dt == 60 && t.st == 0) = true := by decide
theorem test_ldSTVx : passes ((launched 0xF318).setReg 3 5) (fun t => t.st == 5 && t.soundActive) = true := by decide
-- T164 and T166.
theorem test_tick :
    passes (((waiting.setDt 1).setSt 0).setPending [.tick])
      (fun t => t.dt == 0 && t.st == 0 && t.run == .waitingForKeyPress 2) = true := by decide
-- S7 and T169.
theorem test_key_press :
    passes (waiting.setPending [.key 7 true])
      (fun t => t.reg 2 == 7 && t.keyHeld 7 && t.run == .running && t.pc == 0x200) = true := by decide
theorem test_key_release :
    passes ((waiting.setKey 7 true).setPending [.key 7 false])
      (fun t => t.reg 2 == 0 && !t.keyHeld 7 && t.run == .waitingForKeyPress 2) = true := by decide

/-! ## RESET, LOAD, RUN: T180 to T184, T9 -/

/-- A state a program has run in. -/
def used : State := (((calls 2 (launched 0x1200)).setReg 3 9).setDt 7).setRun (.halted .invalidKeyIndex 0x200 16)

theorem test_reset :
    passes ((used.storeBytes 0 [1]).setPending [.reset])
      (fun t => t == State.reset && t.readByte 0x4B == 0xF0 && t.readByte 0x200 == 0) = true := by decide
theorem test_load :
    passes (used.setPending [.load [0x00, 0xE0, 0x12]])
      (fun t => t.readByte 0x201 == 0xE0 && t.readByte 0x202 == 0x12 && t.run == .running && t.pc == 0x200 &&
        t.reg 3 == 0 && t.stack == [] && t.dt == 0) = true := by decide
theorem test_load_keeps :
    passes ((((launchedOther 0).setReg 3 9).setDt 7).setPending [.load []])
      (fun t => t.reg 3 == 9 && t.dt == 7 && t.run == .running) = true := by decide
theorem test_run :
    runResults 3 (launched 0xF00A) = [.executed, .idle, .idle] ∧
    passes ((launched 0xF00A).setPending [.run 3]) (fun t => t.run == .waitingForKeyPress 0 && t.pc == 0x202) = true := by
  decide

/-! ## Witnesses: a state and operands for the hypotheses of every statement that has some

One theorem per statement, `witness_<statement>`; where a statement has several clauses, one part per clause, at the
ends of its range. -/

/-- A clean launch with I at `a`. -/
def based (a : Word) : State := (launched 0).setIndex a

theorem launched_screenFull (op : Word) : (launched op).screenFull := gridFull_blankScreen

theorem based_screenFull (a : Word) : (based a).screenFull := gridFull_blankScreen

theorem witness_DecodeOfEncodeIsIdentity :
    (Instr.drw 0xF 0x0 0xF).wellFormed = true ∧ (Instr.nop 0x8008).wellFormed = true := by decide

theorem witness_DecodingFollowsOpcodeMap :
    (⟨0xFFFF#16, 0x00E0#16⟩ ∈ opcodeRows ∧ OpcodeRow.selects ⟨0xFFFF#16, 0x00E0#16⟩ 0x00E0 = true) ∧
    (⟨0xF0FF#16, 0xF065#16⟩ ∈ opcodeRows ∧ OpcodeRow.selects ⟨0xF0FF#16, 0xF065#16⟩ 0xFF65 = true) ∧
    isListed 0x00E1 = false := by decide

-- The hypothesis of `encodes`: a word under each mask and match of the statements.
theorem witness_encodes :
    (0x00E0#16 &&& 0xFFFF#16 = 0x00E0#16 ∧ 0x00EE#16 &&& 0xFFFF#16 = 0x00EE#16) ∧
    ([(0x1FFF#16, 0x1000#16), (0x2000, 0x2000), (0x3FFF, 0x3000), (0x4F00, 0x4000), (0x60FF, 0x6000), (0x7ABC, 0x7000),
      (0xAFFF, 0xA000), (0xBFFF, 0xB000), (0xC0FF, 0xC000), (0xDFFF, 0xD000)].all
        fun p => p.1 &&& 0xF000#16 == p.2) = true ∧
    ([(0x5FF0#16, 0x5000#16), (0x9120, 0x9000), (0x8FF0, 0x8000), (0x8121, 0x8001), (0x8122, 0x8002), (0x8123, 0x8003),
      (0x8F14, 0x8004), (0x81F5, 0x8005), (0x8126, 0x8006), (0x8127, 0x8007), (0x8FFE, 0x800E)].all
        fun p => p.1 &&& 0xF00F#16 == p.2) = true ∧
    ([(0xE19E#16, 0xE09E#16), (0xEFA1, 0xE0A1), (0xF007, 0xF007), (0xFF0A, 0xF00A), (0xF115, 0xF015), (0xF118, 0xF018),
      (0xF11E, 0xF01E), (0xF129, 0xF029), (0xF133, 0xF033), (0xFF55, 0xF055), (0xFF65, 0xF065)].all
        fun p => p.1 &&& 0xF0FF#16 == p.2) = true := by decide

theorem witness_StepRunsDecodedInstruction :
    let s := launchedAt 0xFFE 0x6A3C
    s.pending = [] ∧ s.run = .running ∧ s.pc.toNat + 1 < 4096 ∧
      decodeBytes [s.readByte s.pc.toNat, s.readByte (s.pc.toNat + 1)] = .ok (.ldImm 0xA 0x3C, []) :=
  ⟨by decide, by decide, by decide, rfl⟩

theorem witness_CycleGuardAndFetchFault :
    State.reset.run ≠ .running ∧
    ((launchedAt 0xFFE 0).run = .running ∧ (launchedAt 0xFFE 0).pc.toNat + 1 < 4096) ∧
    (((launched 0).setPc 0xFFF).run = .running ∧ 4096 ≤ ((launched 0).setPc 0xFFF).pc.toNat + 1) ∧
    (((launched 0).setPc 0x1000).run = .running ∧ 4096 ≤ ((launched 0).setPc 0x1000).pc.toNat + 1) := by decide

-- A fetch fault and a fault of an instruction.
theorem witness_FaultsAreRecordedAndWriteNothing :
    (∃ t, ((launched 0).setPc 0xFFF).run = .running ∧ cycle ((launched 0).setPc 0xFFF) = .next t ∧
      t.run = .halted .outOfBoundsMemoryAccess 0xFFF 0x1000) ∧
    (∃ t, (calls 16 (launched 0x2300)).run = .running ∧ cycle (calls 16 (launched 0x2300)) = .next t ∧
      t.run = .halted .stackOverflow 0x200 0x300) :=
  ⟨⟨_, by decide, rfl, by decide⟩, ⟨_, by decide, rfl, by decide⟩⟩

theorem witness_StepPerformsNextOperation :
    (waiting.setPending [.tick]).pending = [.tick] ∧ waiting.pending = [] := by decide

theorem witness_KeySetsSnapshotAndResolvesWait :
    waiting.run = .waitingForKeyPress 2 ∧ (∀ r, (launched 0).run ≠ .waitingForKeyPress r) ∧ (0x0#4 : Nibble) ≠ 0xF#4 :=
  ⟨rfl, fun r h => RunState.noConfusion (show RunState.running = .waitingForKeyPress r from h), by decide⟩

-- The first and the last byte of a program that fits and of one that does not, and the bytes beside it.
theorem witness_LoadCopiesProgramBytes :
    (0 < min [0x12#8].length 3584 ∧ 0x200 + min [0x12#8].length 3584 ≤ 0x201) ∧
    (3583 < min (List.replicate 4000 0xAA#8).length 3584 ∧
      0x200 + min (List.replicate 4000 0xAA#8).length 3584 ≤ 0x1000) ∧
    ((0x1FF < 0x200 : Prop) ∧ 0x200 + min ([] : List Byte).length 3584 ≤ 0x200) := by
  rw [List.length_replicate]; decide

theorem witness_LoadStartsProgram :
    State.reset.cfg.loadResetsCpu = true ∧ (State.construct otherConfig).cfg.loadResetsCpu = false := by decide

-- The last glyph row, and the first and the last zero byte: also for RESET.
theorem witness_ConstructionGivesResetValues :
    ((15 < 16 : Prop) ∧ 4 < 5) ∧ ((0x50 ≤ 0x50 : Prop) ∧ 0x50 < 0x1000) ∧ ((0x50 ≤ 0xFFF : Prop) ∧ 0xFFF < 0x1000) := by
  decide

-- Outside Running; a cycle that executes, one that reports a diagnostic and one that faults.
theorem witness_RunIsRepeatedCycles :
    waiting.run ≠ .running ∧
    (∃ t, cycle (launched 0x6A3C) = .next t ∧ cycleResult (launched 0x6A3C) t = .executed) ∧
    (∃ t, cycle (launched 0x0000) = .next t ∧
      cycleResult (launched 0x0000) t = .executedWithDiagnostic .unknownOpcodeVariant) ∧
    (∃ t, cycle (calls 16 (launched 0x2300)) = .next t ∧
      cycleResult (calls 16 (launched 0x2300)) t = .faulted .stackOverflow) :=
  ⟨by decide, ⟨_, rfl, by decide⟩, ⟨_, rfl, by decide⟩, ⟨_, rfl, by decide⟩⟩

theorem witness_ReturnPopsStack :
    (calls 1 (launched 0)).stack = 0x202 :: [] ∧ (launched 0).stack = [] := by decide

theorem witness_JumpSetsPc : (launched 0x1200).atSelfJump ∧ (launchedAt 0xFFE 0x1FFE).atSelfJump :=
  ⟨⟨by decide, by decide, 0x200, by decide, by decide⟩, ⟨by decide, by decide, 0xFFE, by decide, by decide⟩⟩

theorem witness_CallPushesReturnAddress :
    (calls 15 (launched 0)).depth ≠ (calls 15 (launched 0)).cfg.stackDepth ∧
    (calls 16 (launched 0)).depth = (calls 16 (launched 0)).cfg.stackDepth := by decide

theorem witness_UnlistedWordsAreNoOps :
    (launchedAt 0xFFE 0x8128).run = .running ∧ (launchedAt 0xFFE 0x8128).pc.toNat + 1 < 4096 ∧
      isListed (launchedAt 0xFFE 0x8128).fetchWord = false := by decide

-- x other than 15, a register that is neither x nor VF; the result is unconstrained at x = 15 alone.
theorem witness_ArithmeticAndShifts :
    (0x0#4 : Nibble) ≠ 0xF#4 ∧ (0xE#4 : Nibble) ≠ 0x0#4 ∧ (0xE#4 : Nibble) ≠ 0xF#4 := by decide

-- Which register is shifted, for both values of the parameter.
theorem witness_ShiftsMoveBitIntoVF :
    let s := ((launched 0x8126).setReg 1 4).setReg 2 0xFF
    let u := ((launchedOther 0x8126).setReg 1 4).setReg 2 0xFF
    (0x04#8 = if s.cfg.shiftUsesVy = true then s.reg 2 else s.reg 1) ∧
      0xFF#8 = if u.cfg.shiftUsesVy = true then u.reg 2 else u.reg 1 := by decide

theorem witness_StoreDecimalDigits :
    (based 0xFFD).base + 2 < 4096 ∧ 4096 ≤ (based 0xFFE).base + 2 ∧ (0xFFC < (based 0xFFD).base ∧
      (based 0xFFD).base + 3 ≤ 0x1000) := by decide

-- The last base that fits and the first that does not, for one register and for sixteen: Fx55 and Fx65.
theorem witness_RegisterBlocks :
    ((based 0xFFF).base + (0x0#4).toNat < 4096 ∧ 4096 ≤ (based 0x1000).base + (0x0#4).toNat) ∧
    ((based 0xFF0).base + (0xF#4).toNat < 4096 ∧ 4096 ≤ (based 0xFF1).base + (0xF#4).toNat) ∧
    ((0x3#4).toNat ≤ (0x3#4).toNat ∧ (0x3#4).toNat < (0x4#4).toNat) ∧
    (0xFEF < (based 0xFF0).base ∧ (based 0xFF0).base + (0xF#4).toNat < 0x1000) := by decide

theorem witness_StoreThenLoadRoundTrips :
    (based 0xFF0).base + (0xF#4).toNat < 4096 ∧
    ∃ t u : State, exec (.storeRegs 0xF) (based 0xFF0) = .next t ∧ (∀ a, u.readByte a = t.readByte a) ∧ u.index = t.index ∧
      u.reg 3 ≠ t.reg 3 := by
  refine ⟨by decide, _, ((based 0xFF0).storeBytes 0xFF0 ((based 0xFF0).regsUpTo 0xF)).setReg 3 9,
    rfl, fun a => rfl, rfl, by decide⟩

theorem witness_FetchSeesStoredBytes :
    (based 0xFF0).base + (0xF#4).toNat < 4096 ∧ (0xE#4).toNat + 1 ≤ (0xF#4).toNat ∧
      (0xFFE#16).toNat = (based 0xFF0).base + (0xE#4).toNat := by decide

theorem witness_SetPixelTogglesOneCell :
    0 < 32 ∧ gridFull 32 (blankScreen 32) ∧ ¬(1 = 64 % 64 ∧ 0 = 32 % 32) :=
  ⟨by decide, gridFull_blankScreen, by decide⟩

-- No sprite byte, the last that fits, the first that does not; a cell drawn on a set and on a clear cell.
theorem witness_DrawSpriteXorsAndReportsCollision :
    ((based 0xFFFF).screenFull ∧ ((0x0#4 : Nibble) = 0 ∨ (based 0xFFFF).base + (0x0#4).toNat - 1 < 4096)) ∧
    ((based 0xFF1).screenFull ∧ ((0xF#4 : Nibble) = 0 ∨ (based 0xFF1).base + (0xF#4).toNat - 1 < 4096)) ∧
    ((0xF#4 : Nibble) ≠ 0 ∧ 4096 ≤ (based 0xFF2).base + (0xF#4).toNat - 1) ∧
    (drawing (launched 0) 0x80 63 31).spriteHits 0 1 1 false ∧
    ((drawing (launched 0) 0x80 63 31).setFb (setCellAt (blankScreen 32) 63 31 true)).spriteHits 0 1 1 true :=
  ⟨⟨based_screenFull _, by decide⟩, ⟨based_screenFull _, by decide⟩, by decide,
    ⟨63, 31, by decide, by decide, ⟨0, 0, by decide, by decide, by decide, by decide, by decide⟩, by decide⟩,
    ⟨63, 31, by decide, by decide, ⟨0, 0, by decide, by decide, by decide, by decide, by decide⟩, by decide⟩⟩

theorem witness_DrawTwiceRestoresScreen :
    (based 0xFF1).screenFull ∧ ((0xF#4 : Nibble) = 0 ∨ (based 0xFF1).base + (0xF#4).toNat - 1 < 4096) ∧
      (0x0#4 : Nibble) ≠ 0xF#4 ∧ (0xE#4 : Nibble) ≠ 0xF#4 := ⟨based_screenFull _, by decide⟩

theorem witness_FramebufferReadOutIsRowMajor :
    (launched 0).screenFull ∧ 63 < 64 ∧ 31 < (launched 0).rows := ⟨launched_screenFull _, by decide⟩

theorem witness_SkipOnKeyState :
    (((launched 0).setReg 1 15).reg 1).toNat = (0xF#4).toNat ∧ 15 < (((launched 0).setReg 1 16).reg 1).toNat := by decide

theorem witness_WaitForKeyPress :
    waiting.run = .waitingForKeyPress 2 ∧
    ∃ t, perform (.key 7 true) waiting = .next t ∧ t.run ≠ waiting.run := ⟨rfl, _, rfl, by decide⟩

-- A destination, the flag, and the last register of a block.
theorem witness_RegistersChangeOnlyByTheirWriters :
    (∃ t, exec (.ldImm 1 9) (launched 0) = .next t ∧ t.reg 1 ≠ (launched 0).reg 1) ∧
    (∃ t, exec (.subReg 1 2) (launched 0) = .next t ∧ t.reg 0xF ≠ (launched 0).reg 0xF) ∧
    (∃ t, exec (.loadRegs 3) (launched 0) = .next t ∧ t.reg 3 ≠ (launched 0).reg 3) :=
  ⟨⟨_, rfl, by decide⟩, ⟨_, rfl, by decide⟩, ⟨_, rfl, by decide⟩⟩

theorem witness_FlagWritersLeaveZeroOrOne :
    ∃ t, writesFlag (.addReg 1 2) = true ∧ (launched 0).run = .running ∧
      exec (.addReg 1 2) (launched 0) = .next t ∧ t.run = .running := ⟨_, rfl, by decide, rfl, by decide⟩

-- The last byte each store writes.
theorem witness_InstructionsChangeMemoryOnlyByStores :
    (∃ t, exec (.ldB 1) ((based 0xFFD).setReg 1 1) = .next t ∧ t.readByte 0xFFF ≠ (based 0xFFD).readByte 0xFFF) ∧
    (∃ t, exec (.storeRegs 1) ((based 0xFFE).setReg 1 1) = .next t ∧ t.readByte 0xFFF ≠ (based 0xFFE).readByte 0xFFF) :=
  ⟨⟨_, rfl, by decide⟩, ⟨_, rfl, by decide⟩⟩

-- One change of each piece of state.
theorem witness_ControlStateChangesOnlyByItsWriters :
    (∃ t, exec (.ldI 1) (launched 0) = .next t ∧ t.index ≠ (launched 0).index) ∧
    (∃ t, exec (.jp 1) (launched 0) = .next t ∧ t.pc ≠ (launched 0).pc) ∧
    (∃ t, exec (.seReg 1 1) (launched 0) = .next t ∧ t.pc ≠ (launched 0).pc) ∧
    (∃ t, exec .ret (calls 1 (launched 0)) = .next t ∧ t.stack ≠ (calls 1 (launched 0)).stack) ∧
    (∃ t, exec (.ldDTVx 1) ((launched 0).setReg 1 1) = .next t ∧ t.dt ≠ (launched 0).dt) ∧
    (∃ t, exec (.ldSTVx 1) ((launched 0).setReg 1 1) = .next t ∧ t.st ≠ (launched 0).st) ∧
    (∃ t, exec .cls ((launched 0).setFb []) = .next t ∧ t.fb ≠ []) ∧
    (∃ t, exec (.ldVxK 1) (launched 0) = .next t ∧ t.run ≠ (launched 0).run) :=
  ⟨⟨_, rfl, by decide⟩, ⟨_, rfl, by decide⟩, ⟨_, rfl, by decide⟩, ⟨_, rfl, by decide⟩, ⟨_, rfl, by decide⟩,
    ⟨_, rfl, by decide⟩, ⟨_, rfl, by decide⟩, ⟨_, rfl, by decide⟩⟩

-- Halted left by LOAD, a wait left by a press, Paused kept, and Running left by a cycle.
theorem witness_RunStateTransitions :
    (∃ t, step (used.setPending [.load []]) = .next t ∧ (used.setPending [.load []]).isHalted ∧ t.run ≠ used.run) ∧
    (∃ t, step (waiting.setPending [.key 7 true]) = .next t ∧ waiting.run = .waitingForKeyPress 2 ∧
      t.run ≠ waiting.run) ∧
    (∃ t, step ((launched 0).setRun .paused) = .next t ∧ t.run = .paused) ∧
    (∃ t, step (launched 0xF20A) = .next t ∧ (launched 0xF20A).pending = [] ∧ t.run ≠ (launched 0xF20A).run) :=
  ⟨⟨_, rfl, ⟨_, _, _, rfl⟩, by decide⟩, ⟨_, rfl, rfl, by decide⟩, ⟨_, rfl, by decide⟩, ⟨_, rfl, by decide, by decide⟩⟩

theorem witness_ParametersNeverChange : ∃ t, step (used.setPending [.reset]) = .next t := ⟨_, rfl⟩

theorem witness_CanonicalMemoryIsUnique :
    Memory.wf defaultConfig [(0x000, 0x00), (0xFFF, 0x01)] = true := by decide

/-- About to return from the last word of memory, with the deepest stack and the highest saved pc. -/
def returning : State := (launchedAt 0xFFE 0x00EE).setStack (List.replicate 16 0x1000)

theorem witness_EveryStepKeepsInvariant : returning.Inv ∧ ∃ t, step returning = .next t :=
  ⟨⟨by decide, gridFull_blankScreen, (by decide : (0xFFE : Nat) ≤ 0x1002),
    (by decide : 16 ≤ 16), fun a h => by rw [List.eq_of_mem_replicate h]; decide⟩, _, rfl⟩

end Sys2Proof.Tests
end

section
/-! PROOFS. The statements about the state as a whole (10_state.md): no instruction reads ST (R34), no step changes the
parameters (R36). -/
namespace Sys2Proof.Machine

variable (s : State)

/-! ## No instruction reads ST (10_state.md R34) -/

/-- Both results are next states, and the second is the first with `b` in ST. -/
def sameButSt (b : Byte) (r r' : Result) : Prop := ∃ t, r = .next t ∧ r' = .next (t.setSt b)

theorem State.skipIf_setSt (b : Byte) (c : Bool) : (s.setSt b).skipIf c = (s.skipIf c).setSt b := by
  cases c <;> rfl

theorem State.loadBlock_setSt (b : Byte) (base k : Nat) :
    (s.setSt b).loadBlock base k = (s.loadBlock base k).setSt b := by
  induction k with
  | zero => rfl
  | succ k ih =>
    rw [State.loadBlock, ih]
    rfl

/-- A checked access does not read ST when its effect does not. -/
theorem checkedAccess_sameButSt (b : Byte) (base last : Nat) (done : State) :
    sameButSt b (checkedAccess base last s done) (checkedAccess base last (s.setSt b) (done.setSt b)) := by
  rcases Nat.lt_or_ge last memSize with h | h
  · exact ⟨_, checkedAccess_in s h, checkedAccess_in _ h⟩
  · exact ⟨_, checkedAccess_out s h, checkedAccess_out _ h⟩

theorem skipOnKey_sameButSt (b : Byte) (x : Nibble) (want : Bool) :
    sameButSt b (skipOnKey x want s) (skipOnKey x want (s.setSt b)) := by
  by_cases h : 15 < (s.reg x).toNat
  · exact ⟨_, skipOnKey_fault s want h, skipOnKey_fault (s.setSt b) want h⟩
  · exact ⟨_, skipOnKey_next s want h,
      (skipOnKey_next (s.setSt b) want h).trans (congrArg _ (s.skipIf_setSt b _))⟩

theorem execRet_sameButSt (b : Byte) : sameButSt b (execRet s) (execRet (s.setSt b)) := by
  unfold execRet
  rw [State.setSt_stack]
  cases s.stack <;> exact ⟨_, rfl, rfl⟩

theorem execCall_sameButSt (b : Byte) (nnn : Addr) : sameButSt b (execCall nnn s) (execCall nnn (s.setSt b)) := by
  unfold execCall
  rw [State.setSt_depth, State.setSt_cfg]
  split
  · exact ⟨_, raise_eq s _ _, raise_eq (s.setSt b) _ _⟩
  · exact ⟨_, rfl, rfl⟩

theorem execDrw_sameButSt (b : Byte) (x y n : Nibble) :
    sameButSt b (execDrw x y n s) (execDrw x y n (s.setSt b)) := by
  unfold execDrw
  split
  · exact ⟨_, rfl, rfl⟩
  · exact checkedAccess_sameButSt s b _ _ _

theorem execLoadRegs_sameButSt (b : Byte) (x : Nibble) :
    sameButSt b (execLoadRegs x s) (execLoadRegs x (s.setSt b)) := by
  unfold execLoadRegs
  rw [State.loadBlock_setSt]
  exact checkedAccess_sameButSt s b _ _ _

/-- Every instruction but `Fx18` carries a difference in ST through to its next state and lets it reach nothing else. -/
theorem exec_sameButSt (i : Instr) (b : Byte) (hi : ∀ x, i ≠ .ldSTVx x) :
    sameButSt b (exec i s) (exec i (s.setSt b)) := by
  cases i with
  | ldSTVx x => exact absurd rfl (hi x)
  | ret => exact execRet_sameButSt s b
  | call nnn => exact execCall_sameButSt s b nnn
  | drw x y n => exact execDrw_sameButSt s b x y n
  | skp x => exact skipOnKey_sameButSt s b x true
  | sknp x => exact skipOnKey_sameButSt s b x false
  | ldB x => exact checkedAccess_sameButSt s b _ _ _
  | storeRegs x => exact checkedAccess_sameButSt s b _ _ _
  | loadRegs x => exact execLoadRegs_sameButSt s b x
  | seImm x nn => exact ⟨_, rfl, congrArg _ (s.skipIf_setSt b _)⟩
  | sneImm x nn => exact ⟨_, rfl, congrArg _ (s.skipIf_setSt b _)⟩
  | seReg x y => exact ⟨_, rfl, congrArg _ (s.skipIf_setSt b _)⟩
  | sneReg x y => exact ⟨_, rfl, congrArg _ (s.skipIf_setSt b _)⟩
  | _ => exact ⟨_, rfl, rfl⟩

/-! ## No step changes the parameters (10_state.md R36) -/

/-- The result is a next state with the parameters of `s`. -/
def keepsCfg (r : Result) : Prop := ∃ t, r = .next t ∧ t.cfg = s.cfg

/-- A checked access keeps the parameters when its effect does. -/
theorem checkedAccess_keepsCfg (base last : Nat) {done : State} (h : done.cfg = s.cfg) :
    keepsCfg s (checkedAccess base last s done) := by
  rcases checkedAccess_cases s base last done with ⟨-, hin⟩ | ⟨-, hout⟩
  · exact ⟨_, hin, h⟩
  · exact ⟨_, hout, rfl⟩

theorem skipOnKey_keepsCfg (x : Nibble) (want : Bool) : keepsCfg s (skipOnKey x want s) := by
  by_cases h : 15 < (s.reg x).toNat
  · exact ⟨_, skipOnKey_fault s want h, rfl⟩
  · exact ⟨_, skipOnKey_next s want h, s.skipIf_cfg _⟩

theorem execRet_keepsCfg : keepsCfg s (execRet s) := by
  unfold execRet
  split <;> exact ⟨_, rfl, rfl⟩

theorem execCall_keepsCfg (nnn : Addr) : keepsCfg s (execCall nnn s) := by
  unfold execCall
  split
  · exact ⟨_, raise_eq s _ _, rfl⟩
  · exact ⟨_, rfl, rfl⟩

theorem execDrw_keepsCfg (x y n : Nibble) : keepsCfg s (execDrw x y n s) := by
  unfold execDrw
  split
  · exact ⟨_, rfl, rfl⟩
  · exact checkedAccess_keepsCfg s _ _ rfl

theorem exec_keepsCfg (i : Instr) : keepsCfg s (exec i s) := by
  cases i with
  | ret => exact execRet_keepsCfg s
  | call nnn => exact execCall_keepsCfg s nnn
  | drw x y n => exact execDrw_keepsCfg s x y n
  | skp x => exact skipOnKey_keepsCfg s x true
  | sknp x => exact skipOnKey_keepsCfg s x false
  | ldB x => exact checkedAccess_keepsCfg s _ _ rfl
  | storeRegs x => exact checkedAccess_keepsCfg s _ _ rfl
  | loadRegs x => exact checkedAccess_keepsCfg s _ _ (s.loadBlock_cfg _ _)
  | seImm x nn => exact ⟨_, rfl, s.skipIf_cfg _⟩
  | sneImm x nn => exact ⟨_, rfl, s.skipIf_cfg _⟩
  | seReg x y => exact ⟨_, rfl, s.skipIf_cfg _⟩
  | sneReg x y => exact ⟨_, rfl, s.skipIf_cfg _⟩
  | _ => exact ⟨_, rfl, rfl⟩

theorem cycle_keepsCfg : keepsCfg s (cycle s) := by
  unfold cycle fetchExecute
  split
  · split
    · exact ⟨_, rfl, rfl⟩
    · exact exec_keepsCfg s.advance _
  · exact ⟨_, rfl, rfl⟩

theorem runCycles_keepsCfg (n : Nat) : keepsCfg s (runCycles n s) := by
  induction n generalizing s with
  | zero => exact ⟨_, rfl, rfl⟩
  | succ n ih =>
    obtain ⟨t, ht, hcfg⟩ := cycle_keepsCfg s
    obtain ⟨u, hu, hcfg'⟩ := ih t
    exact ⟨u, by simp only [runCycles, ht, hu], hcfg'.trans hcfg⟩

theorem perform_keepsCfg (op : HostOp) : keepsCfg s (perform op s) := by
  cases op with
  | reset => exact ⟨_, rfl, rfl⟩
  | load bytes => exact ⟨_, rfl, (s.loadProgram_fields bytes).1⟩
  | cycle => exact cycle_keepsCfg s
  | run n => exact runCycles_keepsCfg s n
  | tick => exact ⟨_, rfl, rfl⟩
  | key k pressed => exact ⟨_, rfl, s.pressKey_cfg k pressed⟩

theorem step_keepsCfg : keepsCfg s (step s) := by
  unfold step nextOperation
  split
  · exact cycle_keepsCfg s
  · exact perform_keepsCfg (s.setPending _) _

end Sys2Proof.Machine

namespace Sys2Proof.Proofs
open Sys2Proof.Machine

/-- Settles O52: `Fx18` writes the same byte over either ST; every other instruction carries the difference through. -/
theorem noInstructionReadsSoundTimer : Obligations.NoInstructionReadsSoundTimer := by
  intro i s b
  by_cases hi : ∃ x, i = .ldSTVx x
  · obtain ⟨x, rfl⟩ := hi
    exact ⟨_, _, rfl, rfl, .inr ⟨rfl, x, rfl⟩⟩
  · obtain ⟨t, ht, ht'⟩ := exec_sameButSt s i b fun x hx => hi ⟨x, hx⟩
    exact ⟨t, t.setSt b, ht, ht', .inl rfl⟩

/-- Settles O53: every operation a step performs keeps the parameters, a batch of cycles by induction on its length. -/
theorem parametersNeverChange : Obligations.ParametersNeverChange := by
  intro s t h
  obtain ⟨t', ht', hcfg⟩ := step_keepsCfg s
  cases h.symm.trans ht'
  exact hcfg

end Sys2Proof.Proofs
end

section
/-! PROOFS. The statement about memory (20_memory.md): what LOAD writes (R76). -/
namespace Sys2Proof.Machine

variable (s : State) (bytes : List Byte)

/-- A byte of memory after LOAD: one of the truncated program in its range, the byte before at any other address. -/
theorem State.loadProgram_readByte (a : Nat) :
    (s.loadProgram bytes).readByte a =
      if progBase ≤ a ∧ a < progBase + (bytes.take progMax).length then (bytes.take progMax).getD (a - progBase) 0
      else s.readByte a := by
  obtain ⟨hcfg, hmem, -⟩ := s.loadProgram_fields bytes
  unfold State.readByte
  rw [hcfg, hmem, Memory.read_writeBytes]

theorem State.loadProgram_readByte_program {k : Nat} (hk : k < min bytes.length progMax) :
    (s.loadProgram bytes).readByte (progBase + k) = bytes.getD k 0 := by
  have hlen : k < (bytes.take progMax).length := by rwa [List.length_take, Nat.min_comm]
  have hfit : k < progMax := hk.trans_le (Nat.min_le_right _ _)
  rw [s.loadProgram_readByte, if_pos ⟨Nat.le_add_right _ _, Nat.add_lt_add_left hlen _⟩, Nat.add_sub_cancel_left]
  simp only [List.getD_eq_getElem?_getD, List.getElem?_take_of_lt hfit]

theorem State.loadProgram_readByte_other {a : Nat} (ha : a < progBase ∨ progBase + min bytes.length progMax ≤ a) :
    (s.loadProgram bytes).readByte a = s.readByte a := by
  rw [s.loadProgram_readByte, List.length_take, Nat.min_comm, if_neg]
  rintro ⟨hlo, hhi⟩
  exact ha.elim hlo.not_gt hhi.not_ge

end Sys2Proof.Machine

namespace Sys2Proof.Proofs
open Sys2Proof.Machine

/-- Settles O12: LOAD is one run of consecutive writes from PROG_BASE, of the program cut to PROG_MAX bytes. -/
theorem loadCopiesProgramBytes : Obligations.LoadCopiesProgramBytes := by
  intro s bytes
  exact ⟨s.loadProgram bytes, rfl, fun _ => s.loadProgram_readByte_program bytes,
    fun _ => s.loadProgram_readByte_other bytes⟩

end Sys2Proof.Proofs
end

section
/-! PROOFS. The statement about the guard and the fetch check of CYCLE (40_engine_operations.md R112, R113). -/
namespace Sys2Proof.Machine

variable (s : State)

theorem State.unchangedBut_setRun (r : RunState) : unchangedBut [.run] s (s.setRun r) := by
  simp [unchangedBut]

/-- The lowest offending address of a fetch: only a word at 4095 starts inside memory and ends outside it
(40_engine_operations.md R112). -/
theorem offendingAddress_of_fetch {a : Nat} (h : memSize ≤ a + 1) :
    offendingAddress a = if memSize ≤ a then a else a + 1 := by
  unfold offendingAddress
  split
  · exact Nat.max_eq_left ‹_›
  · omega

variable {s}

theorem cycle_fetch_fault (hrun : s.run = .running) (hpc : memSize ≤ s.pc.toNat + 1) :
    cycle s = .next (s.setRun (.halted .outOfBoundsMemoryAccess s.pc (offendingAddress s.pc.toNat))) :=
  (if_pos hrun).trans (if_pos hpc)

theorem cycle_exec (hrun : s.run = .running) (hpc : s.pc.toNat + 1 < memSize) :
    cycle s = exec (decode s.fetchWord) s.advance :=
  (if_pos hrun).trans (if_neg hpc.not_ge)

theorem cycleResult_idle (t : State) (hrun : s.run ≠ .running) : cycleResult s t = .idle := if_neg hrun

theorem cycleResult_halted {t : State} {cause : FaultCause} {fpc : Word} {info : Nat} (hrun : s.run = .running)
    (ht : t.run = .halted cause fpc info) : cycleResult s t = .faulted cause := by
  simp only [cycleResult, hrun, ht, if_true]

end Sys2Proof.Machine

namespace Sys2Proof.Proofs
open Sys2Proof.Machine

/-- Settles O6: the three branches of CYCLE, by the run-state and by whether the word at pc lies in memory. -/
theorem cycleGuardAndFetchFault : Obligations.CycleGuardAndFetchFault := by
  intro s
  refine ⟨fun hidle => ⟨cycle_idle s hidle, cycleResult_idle s hidle⟩, fun hrun hout => ?_, cycle_exec⟩
  refine ⟨_, cycle_fetch_fault hrun hout, ?_, s.unchangedBut_setRun _, cycleResult_halted hrun rfl⟩
  rw [State.setRun_run, offendingAddress_of_fetch hout]

end Sys2Proof.Proofs
end

section
/-! PROOFS. Decoding and the opcode map (30_encoding.md): a word is the encoding of what it decodes to, so a word no row
selects is the no-op (R97); the rule of each format for `encodes` (R92). -/
namespace Sys2Proof

variable {op : Word} {t n : Nibble} {nn : Byte}

/-! ## The decoder by top nibble (30_encoding.md R95) -/

theorem top_cases : ∀ t : Nibble, t = 0x0#4 ∨ t = 0x1#4 ∨ t = 0x2#4 ∨ t = 0x3#4 ∨ t = 0x4#4 ∨ t = 0x5#4 ∨ t = 0x6#4 ∨
    t = 0x7#4 ∨ t = 0x8#4 ∨ t = 0x9#4 ∨ t = 0xA#4 ∨ t = 0xB#4 ∨ t = 0xC#4 ∨ t = 0xD#4 ∨ t = 0xE#4 ∨ t = 0xF#4 := by
  decide

theorem decode_top0 (ht : fieldTop op = 0x0#4) : decode op = decodeTop0 op := by simp [decode, ht]
theorem decode_jp (ht : fieldTop op = 0x1#4) : decode op = .jp (fieldNNN op) := by simp [decode, ht]
theorem decode_call (ht : fieldTop op = 0x2#4) : decode op = .call (fieldNNN op) := by simp [decode, ht]
theorem decode_seImm (ht : fieldTop op = 0x3#4) : decode op = .seImm (fieldX op) (fieldNN op) := by simp [decode, ht]
theorem decode_sneImm (ht : fieldTop op = 0x4#4) : decode op = .sneImm (fieldX op) (fieldNN op) := by
  simp [decode, ht]
theorem decode_top5 (ht : fieldTop op = 0x5#4) :
    decode op = if fieldN op = 0x0#4 then .seReg (fieldX op) (fieldY op) else .nop op := by
  simp [decode, ht]
theorem decode_ldImm (ht : fieldTop op = 0x6#4) : decode op = .ldImm (fieldX op) (fieldNN op) := by simp [decode, ht]
theorem decode_addImm (ht : fieldTop op = 0x7#4) : decode op = .addImm (fieldX op) (fieldNN op) := by
  simp [decode, ht]
theorem decode_top8 (ht : fieldTop op = 0x8#4) : decode op = decodeTop8 op := by simp [decode, ht]
theorem decode_top9 (ht : fieldTop op = 0x9#4) :
    decode op = if fieldN op = 0x0#4 then .sneReg (fieldX op) (fieldY op) else .nop op := by
  simp [decode, ht]
theorem decode_ldI (ht : fieldTop op = 0xA#4) : decode op = .ldI (fieldNNN op) := by simp [decode, ht]
theorem decode_ldIV0 (ht : fieldTop op = 0xB#4) : decode op = .ldIV0 (fieldNNN op) := by simp [decode, ht]
theorem decode_rnd (ht : fieldTop op = 0xC#4) : decode op = .rnd (fieldX op) (fieldNN op) := by simp [decode, ht]
theorem decode_drw (ht : fieldTop op = 0xD#4) : decode op = .drw (fieldX op) (fieldY op) (fieldN op) := by
  simp [decode, ht]
theorem decode_topE (ht : fieldTop op = 0xE#4) : decode op = decodeTopE op := by simp [decode, ht]
theorem decode_topF (ht : fieldTop op = 0xF#4) : decode op = decodeTopF op := by simp [decode, ht]

theorem decode_seReg (ht : fieldTop op = 0x5#4) (hn : fieldN op = 0x0#4) :
    decode op = .seReg (fieldX op) (fieldY op) := (decode_top5 ht).trans (if_pos hn)

theorem decode_sneReg (ht : fieldTop op = 0x9#4) (hn : fieldN op = 0x0#4) :
    decode op = .sneReg (fieldX op) (fieldY op) := (decode_top9 ht).trans (if_pos hn)

/-! ## A word from its fixed and its variable fields -/

theorem word_of_top_addr (ht : fieldTop op = t) : t ++ fieldNNN op = op := ht ▸ word_of_addr op

theorem word_of_top_byte (ht : fieldTop op = t) : t ++ fieldX op ++ fieldNN op = op := ht ▸ word_of_byte op

theorem word_of_top_nn (ht : fieldTop op = t) (hnn : fieldNN op = nn) : t ++ fieldX op ++ nn = op :=
  hnn ▸ word_of_top_byte ht

theorem word_of_top_nibbles (ht : fieldTop op = t) : t ++ fieldX op ++ fieldY op ++ fieldN op = op :=
  ht ▸ word_of_nibbles op

theorem word_of_top_n (ht : fieldTop op = t) (hn : fieldN op = n) : t ++ fieldX op ++ fieldY op ++ n = op :=
  hn ▸ word_of_top_nibbles ht

/-! ## Encoding what a word decodes to -/

theorem encode_decodeTop0 : encode (decodeTop0 op) = op := by
  unfold decodeTop0
  split_ifs with hcls hret
  · exact hcls.symm
  · exact hret.symm
  · rfl

theorem encode_decodeTop8 (ht : fieldTop op = 0x8#4) : encode (decodeTop8 op) = op := by
  unfold decodeTop8
  split_ifs
  case neg => rfl
  all_goals exact word_of_top_n ht ‹_›

theorem encode_decodeTopE (ht : fieldTop op = 0xE#4) : encode (decodeTopE op) = op := by
  unfold decodeTopE
  split_ifs
  case neg => rfl
  all_goals exact word_of_top_nn ht ‹_›

theorem encode_decodeTopF (ht : fieldTop op = 0xF#4) : encode (decodeTopF op) = op := by
  unfold decodeTopF
  split_ifs
  case neg => rfl
  all_goals exact word_of_top_nn ht ‹_›

/-- Every branch of the decoder keeps the whole word: what it does not store, the branch has tested. -/
theorem encode_decode (op : Word) : encode (decode op) = op := by
  rcases top_cases (fieldTop op) with ht | ht | ht | ht | ht | ht | ht | ht | ht | ht | ht | ht | ht | ht | ht | ht
  · rw [decode_top0 ht, encode_decodeTop0]
  · exact decode_jp ht ▸ word_of_top_addr ht
  · exact decode_call ht ▸ word_of_top_addr ht
  · exact decode_seImm ht ▸ word_of_top_byte ht
  · exact decode_sneImm ht ▸ word_of_top_byte ht
  · rw [decode_top5 ht]
    split
    · exact word_of_top_n ht ‹_›
    · rfl
  · exact decode_ldImm ht ▸ word_of_top_byte ht
  · exact decode_addImm ht ▸ word_of_top_byte ht
  · rw [decode_top8 ht, encode_decodeTop8 ht]
  · rw [decode_top9 ht]
    split
    · exact word_of_top_n ht ‹_›
    · rfl
  · exact decode_ldI ht ▸ word_of_top_addr ht
  · exact decode_ldIV0 ht ▸ word_of_top_addr ht
  · exact decode_rnd ht ▸ word_of_top_byte ht
  · exact decode_drw ht ▸ word_of_top_nibbles ht
  · rw [decode_topE ht, encode_decodeTopE ht]
  · rw [decode_topF ht, encode_decodeTopF ht]

/-! ## A word no row selects -/

/-- The statement of every instruction about its row of the opcode map. -/
theorem Laws.TableRow.statement : ∀ i : Instr, Laws.TableRow.Statement i
  | .cls => cls
  | .ret => ret
  | .jp nnn => jp nnn
  | .call nnn => call nnn
  | .seImm x nn => seImm x nn
  | .sneImm x nn => sneImm x nn
  | .seReg x y => seReg x y
  | .ldImm x nn => ldImm x nn
  | .addImm x nn => addImm x nn
  | .ldReg x y => ldReg x y
  | .orReg x y => orReg x y
  | .andReg x y => andReg x y
  | .xorReg x y => xorReg x y
  | .addReg x y => addReg x y
  | .subReg x y => subReg x y
  | .shr x y => shr x y
  | .subn x y => subn x y
  | .shl x y => shl x y
  | .sneReg x y => sneReg x y
  | .ldI nnn => ldI nnn
  | .ldIV0 nnn => ldIV0 nnn
  | .rnd x nn => rnd x nn
  | .drw x y n => drw x y n
  | .skp x => skp x
  | .sknp x => sknp x
  | .ldVxDT x => ldVxDT x
  | .ldVxK x => ldVxK x
  | .ldDTVx x => ldDTVx x
  | .ldSTVx x => ldSTVx x
  | .addI x => addI x
  | .ldF x => ldF x
  | .ldB x => ldB x
  | .storeRegs x => storeRegs x
  | .loadRegs x => loadRegs x
  | .nop w => nop w

theorem isListed_of_selects {r : OpcodeRow} (hr : r ∈ opcodeRows) (hsel : r.selects op = true) : isListed op = true :=
  List.any_eq_true.2 ⟨r, hr, hsel⟩

theorem Instr.row_eq_none {i : Instr} (h : i.row = none) : ∃ w, i = .nop w := by
  cases i with
  | nop w => exact ⟨w, rfl⟩
  | _ => cases h

/-- Were the word decoded to an instruction with a row, that row would select the word. -/
theorem decode_of_not_listed (h : isListed op = false) : decode op = .nop op := by
  have hword := encode_decode op
  cases hrow : (decode op).row with
  | some r =>
    obtain ⟨hr, hsel⟩ := (Laws.TableRow.statement (decode op)).1 r hrow
    rw [hword] at hsel
    exact absurd (isListed_of_selects hr hsel) (by simp [h])
  | none =>
    obtain ⟨w, hw⟩ := Instr.row_eq_none hrow
    rw [hw] at hword ⊢
    exact congrArg Instr.nop hword

/-! ## Rows of the opcode map and the decoder -/

variable {i : Word → Instr}

/-- A row of format FIXED. -/
theorem encodes_word {w : Word} {j : Instr} (h : decode w = j) : Machine.encodes 0xFFFF#16 w fun _ => j := by
  intro op hop
  rw [mask_all] at hop
  rw [hop, h]

/-- A row of format NNN, XNN or XYN. -/
theorem encodes_top (h : ∀ op, fieldTop op = t → decode op = i op) : Machine.encodes 0xF000#16 (t ++ 0#12) i :=
  fun op hop => h op ((mask_top_iff op t).1 hop)

/-- A row of format XY. -/
theorem encodes_top_n (h : ∀ op, fieldTop op = t → fieldN op = n → decode op = i op) :
    Machine.encodes 0xF00F#16 (t ++ 0#4 ++ 0#4 ++ n) i := by
  intro op hop
  obtain ⟨ht, hn⟩ := (mask_top_n_iff op t n).1 hop
  exact h op ht hn

end Sys2Proof
end

section
/-! PROOFS. The statements about control flow (41_flow.md): the return (R140), the jump (R141), the skips (R143 to R146)
and the no-op (R147). -/
namespace Sys2Proof.Machine

variable (s : State)

/-! ## What a write of pc leaves unchanged -/

theorem State.unchangedBut_setPc (a : Word) : unchangedBut [.pc] s (s.setPc a) := by
  simp [unchangedBut]

theorem State.unchangedBut_setStack_setPc (l : List Word) (a : Word) :
    unchangedBut [.pc, .stack] s ((s.setStack l).setPc a) := by
  simp [unchangedBut]

theorem State.unchangedBut_skipIf (b : Bool) : unchangedBut [.pc] s (s.skipIf b) :=
  s.skipIf_eq_setPc b ▸ s.unchangedBut_setPc _

/-! ## Skips -/

theorem State.skipIf_beq_pc {w : Nat} (a b : BitVec w) :
    (s.skipIf (a == b)).pc = if a = b then s.pc + 2 else s.pc := by
  simp only [State.skipIf_pc, beq_iff_eq]

theorem State.skipIf_bne_pc {w : Nat} (a b : BitVec w) :
    (s.skipIf (a != b)).pc = if a = b then s.pc else s.pc + 2 := by
  simp only [State.skipIf_pc, bne_iff_ne, ite_not]

/-! ## The return -/

variable {s}

theorem exec_ret_cons {a : Word} {rest : List Word} (h : s.stack = a :: rest) :
    exec .ret s = .next ((s.setStack rest).setPc a) := by
  simp only [exec, execRet, h]

theorem exec_ret_nil (h : s.stack = []) : exec .ret s = .next s := by
  simp only [exec, execRet, h]

theorem diagnosticOf_ret_cons {a : Word} {rest : List Word} (h : s.stack = a :: rest) : diagnosticOf .ret s = none :=
  if_neg (by simp [h])

theorem diagnosticOf_ret_nil (h : s.stack = []) : diagnosticOf .ret s = some .emptyStackReturn := if_pos h

/-! ## Cycles that move pc alone -/

/-- The jump overwrites the advanced pc with the address it came from (40_engine_operations.md R122). -/
theorem cycle_selfJump (h : s.atSelfJump) : cycle s = .next s := by
  obtain ⟨hrun, hpc, nnn, hjp, hnnn⟩ := h
  calc cycle s = exec (.jp nnn) s.advance := by rw [cycle_exec hrun hpc, hjp]
    _ = .next (s.setPc (addrWord nnn)) := rfl
    _ = .next s := by rw [hnnn]; rfl

theorem cycle_nop {w : Word} (hrun : s.run = .running) (hpc : s.pc.toNat + 1 < memSize)
    (hnop : decode s.fetchWord = .nop w) : cycle s = .next s.advance := by
  rw [cycle_exec hrun hpc, hnop]
  rfl

/-- A cycle that stays in Running reports the diagnostic of its instruction (40_engine_operations.md R114). -/
theorem cycleResult_diagnostic {t : State} {d : Diagnostic} (hrun : s.run = .running) (ht : t.run = .running)
    (hd : diagnosticOf (decode s.fetchWord) s = some d) : cycleResult s t = .executedWithDiagnostic d := by
  simp only [cycleResult, hrun, ht, hd, if_true]

end Sys2Proof.Machine

namespace Sys2Proof.Proofs
open Sys2Proof.Machine

/-- Settles O18: the two cases of the stack. -/
theorem returnPopsStack : Obligations.ReturnPopsStack := by
  refine ⟨encodes_word (by decide), fun s a rest h => ?_, fun s h => ⟨exec_ret_nil h, diagnosticOf_ret_nil h⟩⟩
  exact ⟨_, exec_ret_cons h, rfl, rfl, s.unchangedBut_setStack_setPc rest a, diagnosticOf_ret_cons h⟩

/-- Settles O19: a jump is one write of pc. -/
theorem jumpSetsPc : Obligations.JumpSetsPc := by
  refine ⟨encodes_top (t := 0x1#4) fun _ => decode_jp, fun nnn s => ?_, fun s => cycle_selfJump⟩
  exact ⟨_, rfl, addrWord_toNat nnn, s.unchangedBut_setPc _⟩

/-- Settles O21: the two skips are `skipIf` on opposite tests of one register and the immediate. -/
theorem skipOnImmediate : Obligations.SkipOnImmediate := by
  refine ⟨encodes_top (t := 0x3#4) fun _ => decode_seImm,
    encodes_top (t := 0x4#4) fun _ => decode_sneImm, fun x nn s => ?_, fun x nn s => ?_⟩
  · exact ⟨_, rfl, s.skipIf_beq_pc _ _, s.unchangedBut_skipIf _⟩
  · exact ⟨_, rfl, s.skipIf_bne_pc _ _, s.unchangedBut_skipIf _⟩

/-- Settles O22: the two skips are `skipIf` on opposite tests of two registers. -/
theorem skipOnRegisters : Obligations.SkipOnRegisters := by
  refine ⟨encodes_top_n (t := 0x5#4) (n := 0x0#4) fun _ => decode_seReg,
    encodes_top_n (t := 0x9#4) (n := 0x0#4) fun _ => decode_sneReg, fun x y s => ?_, fun x y s => ?_⟩
  · exact ⟨_, rfl, s.skipIf_beq_pc _ _, s.unchangedBut_skipIf _⟩
  · exact ⟨_, rfl, s.skipIf_bne_pc _ _, s.unchangedBut_skipIf _⟩

/-- Settles O23: an unlisted word decodes to the no-op, whose cycle is the advance of pc. -/
theorem unlistedWordsAreNoOps : Obligations.UnlistedWordsAreNoOps := by
  refine ⟨fun w s => ⟨rfl, rfl⟩, fun s hrun hpc hword => ?_⟩
  have hnop := decode_of_not_listed hword
  refine ⟨s.advance, cycle_nop hrun hpc hnop, s.advance_pc, s.unchangedBut_setPc _, ?_⟩
  exact cycleResult_diagnostic hrun hrun (congrArg (diagnosticOf · s) hnop)

end Sys2Proof.Proofs
end

section
/-! PROOFS. The statements about the ALU (42_alu.md): the loads (R163, R165), the add of an immediate (R164), the add
(R169) and the two subtractions (R170, R172) of two registers. -/
namespace Sys2Proof

variable {op : Word}

/-! ## The rows of top nibble 8 (30_encoding.md R95) -/

theorem decode_ldReg (ht : fieldTop op = 0x8#4) (hn : fieldN op = 0x0#4) :
    decode op = .ldReg (fieldX op) (fieldY op) := by
  simp [decode_top8 ht, decodeTop8, hn]

theorem decode_addReg (ht : fieldTop op = 0x8#4) (hn : fieldN op = 0x4#4) :
    decode op = .addReg (fieldX op) (fieldY op) := by
  simp [decode_top8 ht, decodeTop8, hn]

theorem decode_subReg (ht : fieldTop op = 0x8#4) (hn : fieldN op = 0x5#4) :
    decode op = .subReg (fieldX op) (fieldY op) := by
  simp [decode_top8 ht, decodeTop8, hn]

theorem decode_subn (ht : fieldTop op = 0x8#4) (hn : fieldN op = 0x7#4) :
    decode op = .subn (fieldX op) (fieldY op) := by
  simp [decode_top8 ht, decodeTop8, hn]

end Sys2Proof

namespace Sys2Proof.Machine

variable (s : State) {x z : Nibble} {r : Byte} {f : Bool}

/-! ## Writing one register -/

theorem State.setReg_reg_same (x : Nibble) (r : Byte) : (s.setReg x r).reg x = r := by
  rw [State.setReg_reg, if_pos rfl]

theorem State.setReg_reg_of_ne (hz : z ≠ x) : (s.setReg x r).reg z = s.reg z := by
  rw [State.setReg_reg, if_neg hz]

theorem State.unchangedBut_setReg (x : Nibble) (r : Byte) : unchangedBut [.regs] s (s.setReg x r) := by
  simp [unchangedBut]

/-! ## Writing a result and its flag (42_alu.md R162) -/

theorem State.setResultFlag_reg_flag (x : Nibble) (r : Byte) (f : Bool) :
    (s.setResultFlag x r f).reg 0xF#4 = flagByte f := by
  rw [State.setResultFlag_reg, if_pos rfl]

theorem State.setResultFlag_reg_result (hx : x ≠ 0xF#4) : (s.setResultFlag x r f).reg x = r := by
  rw [State.setResultFlag_reg, if_neg hx, if_pos rfl]

theorem State.setResultFlag_reg_of_ne (hz : z ≠ x) (hflag : z ≠ 0xF#4) :
    (s.setResultFlag x r f).reg z = s.reg z := by
  rw [State.setResultFlag_reg, if_neg hflag, if_neg hz]

theorem State.unchangedBut_setResultFlag (x : Nibble) (r : Byte) (f : Bool) :
    unchangedBut [.regs] s (s.setResultFlag x r f) := by
  simp [unchangedBut]

/-! ## The flags and results of the arithmetic (42_alu.md R160, R161) -/

theorem flagByte_carryOut (a b : Byte) : flagByte (carryOut a b) = if 255 < a.toNat + b.toNat then 1 else 0 := by
  simp only [flagByte, carryOut, decide_eq_true_eq]

theorem flagByte_notBorrow (a b : Byte) : flagByte (notBorrow a b) = if b.toNat ≤ a.toNat then 1 else 0 := by
  simp only [flagByte, notBorrow, decide_eq_true_eq]

/-- The difference as the statements write it, with 256 added before the subtraction. -/
theorem byte_sub_toNat (a b : Byte) : (a - b).toNat = (256 + a.toNat - b.toNat) % 256 := by
  bv_omega

/-- What both subtractions do, `a` and `b` their operands in order: the difference and the flag that nothing was
borrowed. -/
theorem State.setResultFlag_sub {t : State} (a b : Byte) (ht : t = s.setResultFlag x (a - b) (notBorrow a b)) :
    t.reg 0xF#4 = (if b.toNat ≤ a.toNat then 1 else 0) ∧
      (x ≠ 0xF#4 → (t.reg x).toNat = (256 + a.toNat - b.toNat) % 256) ∧
      (∀ z, z ≠ x → z ≠ 0xF#4 → t.reg z = s.reg z) ∧ unchangedBut [.regs] s t := by
  subst ht
  refine ⟨?_, fun hx => ?_, fun _ => s.setResultFlag_reg_of_ne, s.unchangedBut_setResultFlag _ _ _⟩
  · rw [s.setResultFlag_reg_flag, flagByte_notBorrow]
  · rw [s.setResultFlag_reg_result hx, byte_sub_toNat]

end Sys2Proof.Machine

namespace Sys2Proof.Proofs
open Sys2Proof.Machine

/-- Settles O24: both loads are one register write. -/
theorem loadRegister : Obligations.LoadRegister := by
  refine ⟨encodes_top (t := 0x6#4) fun _ => decode_ldImm,
    encodes_top_n (t := 0x8#4) (n := 0x0#4) fun _ => decode_ldReg, fun x nn s => ?_, fun x y s => ?_⟩
  · exact ⟨_, rfl, s.setReg_reg_same _ _, fun _ => s.setReg_reg_of_ne, s.unchangedBut_setReg _ _⟩
  · exact ⟨_, rfl, s.setReg_reg_same _ _, fun _ => s.setReg_reg_of_ne, s.unchangedBut_setReg _ _⟩

/-- Settles O25: one register write of a sum of bytes, which wraps. -/
theorem addImmediateWraps : Obligations.AddImmediateWraps := by
  refine ⟨encodes_top (t := 0x7#4) fun _ => decode_addImm, fun x nn s => ?_⟩
  refine ⟨_, rfl, ?_, fun _ => s.setReg_reg_of_ne, s.unchangedBut_setReg _ _⟩
  rw [s.setReg_reg_same, BitVec.toNat_add]

/-- Settles O27: the sum is written first and the carry second, so VF holds the carry for `x = 15` too. -/
theorem addSetsCarry : Obligations.AddSetsCarry := by
  refine ⟨encodes_top_n (t := 0x8#4) (n := 0x4#4) fun _ => decode_addReg, fun x y s => ?_⟩
  refine ⟨_, rfl, ?_, fun hx => ?_, fun _ => s.setResultFlag_reg_of_ne, s.unchangedBut_setResultFlag _ _ _⟩
  · rw [s.setResultFlag_reg_flag, flagByte_carryOut]
  · rw [s.setResultFlag_reg_result hx, BitVec.toNat_add]

/-- Settles O28: the two subtractions are one write with the operands in opposite order. -/
theorem subtractSetsNotBorrow : Obligations.SubtractSetsNotBorrow := by
  refine ⟨encodes_top_n (t := 0x8#4) (n := 0x5#4) fun _ => decode_subReg,
    encodes_top_n (t := 0x8#4) (n := 0x7#4) fun _ => decode_subn, fun x y s => ?_, fun x y s => ?_⟩
  · exact ⟨_, rfl, s.setResultFlag_sub (s.reg x) (s.reg y) rfl⟩
  · exact ⟨_, rfl, s.setResultFlag_sub (s.reg y) (s.reg x) rfl⟩

end Sys2Proof.Proofs
end

section
/-! PROOFS. The statements about loading I (43_index_memory.md): an immediate (R180), an immediate plus V0 (R181) and
the address of a glyph (R183). -/
namespace Sys2Proof

variable {op : Word} {t : Nibble} {nn : Byte} {i : Word → Instr}

/-- A row of format X: the top nibble and the low byte are fixed. -/
theorem encodes_top_nn (h : ∀ op, fieldTop op = t → fieldNN op = nn → decode op = i op) :
    Machine.encodes 0xF0FF#16 (t ++ 0#4 ++ nn) i := by
  intro op hop
  obtain ⟨ht, hnn⟩ := (mask_top_nn_iff op t nn).1 hop
  exact h op ht hnn

theorem decode_ldF (ht : fieldTop op = 0xF#4) (hnn : fieldNN op = 0x29#8) : decode op = .ldF (fieldX op) := by
  simp [decode_topF ht, decodeTopF, hnn]

end Sys2Proof

namespace Sys2Proof.Machine

variable (s : State)

theorem State.unchangedBut_setIndex (a : Word) : unchangedBut [.index] s (s.setIndex a) := by
  simp [unchangedBut]

/-- A 12-bit immediate plus a byte stays below 65536, so the sum does not wrap (43_index_memory.md R181). -/
theorem addrWord_add_byteWord_toNat (nnn : Addr) (b : Byte) :
    (addrWord nnn + byteWord b).toNat = nnn.toNat + b.toNat := by
  have hfit : nnn.toNat + b.toNat < 2 ^ 16 := by omega
  rw [BitVec.toNat_add, addrWord_toNat, byteWord_toNat, Nat.mod_eq_of_lt hfit]

end Sys2Proof.Machine

namespace Sys2Proof.Proofs
open Sys2Proof.Machine

/-- Settles O30: both loads are one write of I, and the sum of the second fits in 16 bits. -/
theorem loadIndex : Obligations.LoadIndex := by
  refine ⟨encodes_top (t := 0xA#4) fun _ => decode_ldI,
    encodes_top (t := 0xB#4) fun _ => decode_ldIV0, fun nnn s => ?_, fun nnn s => ?_⟩
  · exact ⟨_, rfl, addrWord_toNat nnn, s.unchangedBut_setIndex _⟩
  · exact ⟨_, rfl, addrWord_add_byteWord_toNat nnn (s.reg 0x0#4), s.unchangedBut_setIndex _⟩

/-- Settles O32: one write of I, of the glyph's address. -/
theorem fontAddressIsFiveTimesVx : Obligations.FontAddressIsFiveTimesVx := by
  refine ⟨encodes_top_nn (t := 0xF#4) (nn := 0x29#8) fun _ => decode_ldF, fun x s => ?_⟩
  exact ⟨_, rfl, glyphAddress_toNat (s.reg x), s.unchangedBut_setIndex _⟩

end Sys2Proof.Proofs
end

section
/-! PROOFS. The statements about the framebuffer (44_display.md): `set_pixel` and `is_offscreen` (R201, R202), the clear
(R203). -/
namespace Sys2Proof.Machine

variable {fb : List (List Bool)} {rows x y px py : Nat}

/-! ## `set_pixel` on any coordinates (44_display.md R201) -/

/-- A cell after `set_pixel`: the wrapped cell is on the grid, so the write reaches it. -/
theorem cellAt_setPixel (hrows : 0 < rows) (h : gridFull rows fb) :
    cellAt (setPixel rows fb x y).1 px py =
      if px = x % cols ∧ py = y % rows then !cellAt fb (x % cols) (y % rows) else cellAt fb px py :=
  cellAt_setCellAt h (Nat.mod_lt x (by decide)) (Nat.mod_lt y hrows)

theorem cellAt_setPixel_wrapped (hrows : 0 < rows) (h : gridFull rows fb) :
    cellAt (setPixel rows fb x y).1 (x % cols) (y % rows) = !cellAt fb (x % cols) (y % rows) := by
  rw [cellAt_setPixel hrows h, if_pos ⟨rfl, rfl⟩]

theorem cellAt_setPixel_other (hrows : 0 < rows) (h : gridFull rows fb) (hne : ¬(px = x % cols ∧ py = y % rows)) :
    cellAt (setPixel rows fb x y).1 px py = cellAt fb px py := by
  rw [cellAt_setPixel hrows h, if_neg hne]

theorem isOffscreen_iff : isOffscreen rows x y = true ↔ cols ≤ x ∨ rows ≤ y := by
  simp only [isOffscreen, Bool.or_eq_true, decide_eq_true_eq]

/-! ## What a write of the framebuffer leaves unchanged -/

theorem State.unchangedBut_setFb (s : State) (fb : List (List Bool)) : unchangedBut [.screen] s (s.setFb fb) := by
  simp [unchangedBut]

end Sys2Proof.Machine

namespace Sys2Proof.Proofs
open Sys2Proof.Machine

/-- Settles O39: `set_pixel` is one write of the wrapped cell, with the old value negated. -/
theorem setPixelTogglesOneCell : Obligations.SetPixelTogglesOneCell := by
  refine ⟨fun rows fb x y hrows hfull => ?_, fun rows x y => isOffscreen_iff⟩
  exact ⟨gridFull_setPixel hfull, rfl, cellAt_setPixel_wrapped hrows hfull,
    fun px py => cellAt_setPixel_other hrows hfull⟩

/-- Settles O38: the clear is one write of the blank screen. -/
theorem clearScreenZeroesEveryCell : Obligations.ClearScreenZeroesEveryCell := by
  refine ⟨encodes_word (by decide), fun s => ⟨_, rfl, ?_, fun x y => ?_, s.unchangedBut_setFb _⟩⟩
  · exact gridFull_blankScreen
  · exact cellAt_blankScreen

end Sys2Proof.Proofs
end

section
/-! PROOFS. The statements about the timers and the key wait (45_io_timers.md): the timer moves (R213, R215, R216) and
`Fx0A` (R214). -/
namespace Sys2Proof

variable {op : Word}

/-! ## The rows of top nibble F (30_encoding.md R95) -/

theorem decode_ldVxDT (ht : fieldTop op = 0xF#4) (hnn : fieldNN op = 0x07#8) : decode op = .ldVxDT (fieldX op) := by
  simp [decode_topF ht, decodeTopF, hnn]

theorem decode_ldVxK (ht : fieldTop op = 0xF#4) (hnn : fieldNN op = 0x0A#8) : decode op = .ldVxK (fieldX op) := by
  simp [decode_topF ht, decodeTopF, hnn]

theorem decode_ldDTVx (ht : fieldTop op = 0xF#4) (hnn : fieldNN op = 0x15#8) : decode op = .ldDTVx (fieldX op) := by
  simp [decode_topF ht, decodeTopF, hnn]

theorem decode_ldSTVx (ht : fieldTop op = 0xF#4) (hnn : fieldNN op = 0x18#8) : decode op = .ldSTVx (fieldX op) := by
  simp [decode_topF ht, decodeTopF, hnn]

end Sys2Proof

namespace Sys2Proof.Machine

variable (s : State)

/-! ## Writing a timer -/

theorem State.unchangedBut_setDt (b : Byte) : unchangedBut [.dt] s (s.setDt b) := by
  simp [unchangedBut]

theorem State.unchangedBut_setSt (b : Byte) : unchangedBut [.st] s (s.setSt b) := by
  simp [unchangedBut]

theorem State.soundActive_iff : s.soundActive = true ↔ 0 < s.st.toNat := decide_eq_true_iff

/-! ## A press during a wait (40_engine_operations.md R118) -/

variable {s}

theorem State.pressKey_waiting {x : Nibble} (h : s.run = .waitingForKeyPress x) (k : Nibble) :
    s.pressKey k true = ((s.setKey k true).setReg x (k.setWidth 8)).setRun .running := by
  simp [State.pressKey, State.resolveWait, h]

/-- A key index is a byte without a wrap. -/
theorem keyIndex_toNat (k : Nibble) : (k.setWidth 8).toNat = k.toNat := by
  rw [BitVec.toNat_setWidth, Nat.mod_eq_of_lt (by omega)]

/-! ## Operations outside `Running` (10_state.md R33) -/

theorem runCycles_idle (h : s.run ≠ .running) (n : Nat) : runCycles n s = .next s := by
  induction n with
  | zero => rfl
  | succ n ih => simp only [runCycles, cycle_idle s h, ih]

theorem State.pressKey_release_run (k : Nibble) : (s.pressKey k false).run = s.run := rfl

/-- Outside `Running` cycles are idle, and TICK and a release never touch the run-state, so what is left to change it is
RESET, LOAD and a press. -/
theorem perform_changes_run_of_idle {op : HostOp} {t : State} (hidle : s.run ≠ .running)
    (hop : perform op s = .next t) (hne : t.run ≠ s.run) :
    op = .reset ∨ (∃ bytes, op = .load bytes) ∨ ∃ k, op = .key k true := by
  cases op with
  | reset => exact .inl rfl
  | load bytes => exact .inr (.inl ⟨bytes, rfl⟩)
  | cycle =>
    cases hop.symm.trans (cycle_idle s hidle)
    exact absurd rfl hne
  | run n =>
    cases hop.symm.trans (runCycles_idle hidle n)
    exact absurd rfl hne
  | tick =>
    cases hop
    exact absurd s.tick_run hne
  | key k pressed =>
    cases hop
    cases pressed with
    | false => exact absurd (s.pressKey_release_run k) hne
    | true => exact .inr (.inr ⟨k, rfl⟩)

end Sys2Proof.Machine

namespace Sys2Proof.Proofs
open Sys2Proof.Machine

/-- Settles O46: `Fx0A` is one write of the run-state; the wait is outside `Running`, and a press is the write of the
key's index and of `Running`. -/
theorem waitForKeyPress : Obligations.WaitForKeyPress := by
  refine ⟨encodes_top_nn (t := 0xF#4) (nn := 0x0A#8) fun _ => decode_ldVxK,
    fun x s => ⟨_, rfl, rfl, s.unchangedBut_setRun _⟩, fun x s hwait => ?_⟩
  have hidle : s.run ≠ .running := by simp [hwait]
  refine ⟨cycle_idle s hidle, ?_, fun k => ?_, fun op t => perform_changes_run_of_idle hidle⟩
  · exact ⟨s.tick, rfl, hwait, tickDown_toNat s.dt, tickDown_toNat s.st⟩
  · refine ⟨_, congrArg Host.Outcome.next (State.pressKey_waiting hwait k), rfl, rfl, ?_, fun z hz => ?_⟩
    · rw [State.setRun_reg, State.setReg_reg_same, keyIndex_toNat]
    · rw [State.setRun_reg, State.setReg_reg_of_ne _ hz, State.setKey_reg]

/-- Settles O45: each move is one write, of a register or of one timer. -/
theorem timerMoves : Obligations.TimerMoves := by
  refine ⟨encodes_top_nn (t := 0xF#4) (nn := 0x07#8) fun _ => decode_ldVxDT,
    encodes_top_nn (t := 0xF#4) (nn := 0x15#8) fun _ => decode_ldDTVx,
    encodes_top_nn (t := 0xF#4) (nn := 0x18#8) fun _ => decode_ldSTVx, fun x s => ?_, fun x s => ?_, fun x s => ?_⟩
  · exact ⟨_, rfl, s.setReg_reg_same _ _, fun _ => s.setReg_reg_of_ne, s.unchangedBut_setReg _ _⟩
  · exact ⟨_, rfl, rfl, s.unchangedBut_setDt _⟩
  · exact ⟨_, rfl, rfl, (s.setSt _).soundActive_iff, s.unchangedBut_setSt _⟩

end Sys2Proof.Proofs
end

section
/-! PROOFS. The statement about how a step ends (60_exceptions.md): it defines the next state (R243). -/
namespace Sys2Proof.Proofs
open Sys2Proof.Machine

/-- Settles O9: `step_keepsCfg`, by cases over the operations and the instructions and by induction on the length of a
batch of cycles, finds the next state together with its parameters; only the state is needed here. -/
theorem everyStepAnswersNextState : Obligations.EveryStepAnswersNextState := by
  intro s
  obtain ⟨t, hnext, -⟩ := step_keepsCfg s
  exact ⟨t, hnext⟩

end Sys2Proof.Proofs
end

section
/-! PROOFS. The statement about the state right after reset (70_reset_and_hazards.md R271). -/
namespace Sys2Proof.Machine

/-- Reset memory lists no cell, so each byte is what RESET put there (10_state.md R38). -/
@[simp] theorem State.construct_readByte (c : Config) (a : Nat) : (State.construct c).readByte a = initialByte c a := rfl

end Sys2Proof.Machine

namespace Sys2Proof.Proofs
open Sys2Proof.Machine

/-- Settles O15: registers, pointers, timers and run-state are the fields `construct` writes; memory reads as
`initialByte`, which is the font below FONT_LEN and zero from there on. -/
theorem constructionGivesResetValues : Obligations.ConstructionGivesResetValues := by
  intro c
  refine ⟨State.construct_reg c, fun d r hd hr => ?font, fun a ha _ => ?zeros, State.construct_index c,
    State.construct_pc c, State.construct_stack c, State.construct_dt c, State.construct_st c, State.construct_run c⟩
  case font => rw [State.construct_readByte, initialByte_font hd hr]
  case zeros => rw [State.construct_readByte, initialByte_above ha]

end Sys2Proof.Proofs
end

section
/-! PROOFS. The statements about decoding (30_encoding.md): the decoder inverts the encoder (R92, R100), the encoder the
decoder (R97), and the decoder follows the opcode map (R94). -/
namespace Sys2Proof

variable {op : Word} {x : Nibble}

/-! ## The remaining rows of the opcode map (30_encoding.md R95) -/

theorem decode_orReg (ht : fieldTop op = 0x8#4) (hn : fieldN op = 0x1#4) :
    decode op = .orReg (fieldX op) (fieldY op) := by
  simp [decode_top8 ht, decodeTop8, hn]

theorem decode_andReg (ht : fieldTop op = 0x8#4) (hn : fieldN op = 0x2#4) :
    decode op = .andReg (fieldX op) (fieldY op) := by
  simp [decode_top8 ht, decodeTop8, hn]

theorem decode_xorReg (ht : fieldTop op = 0x8#4) (hn : fieldN op = 0x3#4) :
    decode op = .xorReg (fieldX op) (fieldY op) := by
  simp [decode_top8 ht, decodeTop8, hn]

theorem decode_shr (ht : fieldTop op = 0x8#4) (hn : fieldN op = 0x6#4) :
    decode op = .shr (fieldX op) (fieldY op) := by
  simp [decode_top8 ht, decodeTop8, hn]

theorem decode_shl (ht : fieldTop op = 0x8#4) (hn : fieldN op = 0xE#4) :
    decode op = .shl (fieldX op) (fieldY op) := by
  simp [decode_top8 ht, decodeTop8, hn]

theorem decode_skp (ht : fieldTop op = 0xE#4) (hnn : fieldNN op = 0x9E#8) : decode op = .skp (fieldX op) := by
  simp [decode_topE ht, decodeTopE, hnn]

theorem decode_sknp (ht : fieldTop op = 0xE#4) (hnn : fieldNN op = 0xA1#8) : decode op = .sknp (fieldX op) := by
  simp [decode_topE ht, decodeTopE, hnn]

theorem decode_addI (ht : fieldTop op = 0xF#4) (hnn : fieldNN op = 0x1E#8) : decode op = .addI (fieldX op) := by
  simp [decode_topF ht, decodeTopF, hnn]

theorem decode_ldB (ht : fieldTop op = 0xF#4) (hnn : fieldNN op = 0x33#8) : decode op = .ldB (fieldX op) := by
  simp [decode_topF ht, decodeTopF, hnn]

theorem decode_storeRegs (ht : fieldTop op = 0xF#4) (hnn : fieldNN op = 0x55#8) :
    decode op = .storeRegs (fieldX op) := by
  simp [decode_topF ht, decodeTopF, hnn]

theorem decode_loadRegs (ht : fieldTop op = 0xF#4) (hnn : fieldNN op = 0x65#8) :
    decode op = .loadRegs (fieldX op) := by
  simp [decode_topF ht, decodeTopF, hnn]

/-! ## Decoding an encoded word, by format (30_encoding.md R92)

What the decoder answers for a top nibble, and a discriminator where the format has one, it answers for the word the
fields are substituted into. -/

variable {t n y : Nibble} {nn : Byte} {nnn : Addr}

/-- Format NNN. -/
theorem decode_append_addr {i : Addr → Instr} (h : ∀ op, fieldTop op = t → decode op = i (fieldNNN op)) :
    decode (t ++ nnn) = i nnn := by
  rw [h _ (fieldTop_addr t nnn), fieldNNN_addr]

/-- Format XNN. -/
theorem decode_append_byte {i : Nibble → Byte → Instr}
    (h : ∀ op, fieldTop op = t → decode op = i (fieldX op) (fieldNN op)) : decode (t ++ x ++ nn) = i x nn := by
  rw [h _ (fieldTop_byte t x nn), fieldX_byte, fieldNN_byte]

/-- Format XYN. -/
theorem decode_append_nibbles {i : Nibble → Nibble → Nibble → Instr}
    (h : ∀ op, fieldTop op = t → decode op = i (fieldX op) (fieldY op) (fieldN op)) :
    decode (t ++ x ++ y ++ n) = i x y n := by
  rw [h _ (fieldTop_nibbles t x y n), fieldX_nibbles, fieldY_nibbles, fieldN_nibbles]

/-- Format XY. -/
theorem decode_append_n {i : Nibble → Nibble → Instr}
    (h : ∀ op, fieldTop op = t → fieldN op = n → decode op = i (fieldX op) (fieldY op)) :
    decode (t ++ x ++ y ++ n) = i x y := by
  rw [h _ (fieldTop_nibbles t x y n) (fieldN_nibbles t x y n), fieldX_nibbles, fieldY_nibbles]

/-- Format X. -/
theorem decode_append_nn {i : Nibble → Instr}
    (h : ∀ op, fieldTop op = t → fieldNN op = nn → decode op = i (fieldX op)) : decode (t ++ x ++ nn) = i x := by
  rw [h _ (fieldTop_byte t x nn) (fieldNN_byte t x nn), fieldX_byte]

/-! ## The rows of the opcode map -/

/-- Every word the row selects decodes to an instruction of the row (30_encoding.md R94). -/
def OpcodeRow.decodes (r : OpcodeRow) : Prop := ∀ op, r.selects op = true → (decode op).row = some r

theorem decodes_of_encodes {mask pattern : Word} {i : Word → Instr} (h : Machine.encodes mask pattern i)
    (hrow : ∀ op, (i op).row = some ⟨mask, pattern⟩) : OpcodeRow.decodes ⟨mask, pattern⟩ := by
  intro op hsel
  rw [h op (beq_iff_eq.1 hsel), hrow]

theorem rowsLow_decodes : ∀ r ∈ rowsLow, r.decodes := by
  simp only [rowsLow, List.forall_mem_cons, List.not_mem_nil, false_imp_iff, implies_true, and_true]
  exact ⟨decodes_of_encodes (encodes_word (j := .cls) (by decide)) fun _ => rfl,
    decodes_of_encodes (encodes_word (j := .ret) (by decide)) fun _ => rfl,
    decodes_of_encodes (encodes_top (t := 0x1#4) fun _ => decode_jp) fun _ => rfl,
    decodes_of_encodes (encodes_top (t := 0x2#4) fun _ => decode_call) fun _ => rfl,
    decodes_of_encodes (encodes_top (t := 0x3#4) fun _ => decode_seImm) fun _ => rfl,
    decodes_of_encodes (encodes_top (t := 0x4#4) fun _ => decode_sneImm) fun _ => rfl,
    decodes_of_encodes (encodes_top_n (t := 0x5#4) (n := 0x0#4) fun _ => decode_seReg) fun _ => rfl,
    decodes_of_encodes (encodes_top (t := 0x6#4) fun _ => decode_ldImm) fun _ => rfl,
    decodes_of_encodes (encodes_top (t := 0x7#4) fun _ => decode_addImm) fun _ => rfl⟩

theorem rowsAlu_decodes : ∀ r ∈ rowsAlu, r.decodes := by
  simp only [rowsAlu, List.forall_mem_cons, List.not_mem_nil, false_imp_iff, implies_true, and_true]
  exact ⟨decodes_of_encodes (encodes_top_n (t := 0x8#4) (n := 0x0#4) fun _ => decode_ldReg) fun _ => rfl,
    decodes_of_encodes (encodes_top_n (t := 0x8#4) (n := 0x1#4) fun _ => decode_orReg) fun _ => rfl,
    decodes_of_encodes (encodes_top_n (t := 0x8#4) (n := 0x2#4) fun _ => decode_andReg) fun _ => rfl,
    decodes_of_encodes (encodes_top_n (t := 0x8#4) (n := 0x3#4) fun _ => decode_xorReg) fun _ => rfl,
    decodes_of_encodes (encodes_top_n (t := 0x8#4) (n := 0x4#4) fun _ => decode_addReg) fun _ => rfl,
    decodes_of_encodes (encodes_top_n (t := 0x8#4) (n := 0x5#4) fun _ => decode_subReg) fun _ => rfl,
    decodes_of_encodes (encodes_top_n (t := 0x8#4) (n := 0x6#4) fun _ => decode_shr) fun _ => rfl,
    decodes_of_encodes (encodes_top_n (t := 0x8#4) (n := 0x7#4) fun _ => decode_subn) fun _ => rfl,
    decodes_of_encodes (encodes_top_n (t := 0x8#4) (n := 0xE#4) fun _ => decode_shl) fun _ => rfl⟩

theorem rowsMid_decodes : ∀ r ∈ rowsMid, r.decodes := by
  simp only [rowsMid, List.forall_mem_cons, List.not_mem_nil, false_imp_iff, implies_true, and_true]
  exact ⟨decodes_of_encodes (encodes_top_n (t := 0x9#4) (n := 0x0#4) fun _ => decode_sneReg) fun _ => rfl,
    decodes_of_encodes (encodes_top (t := 0xA#4) fun _ => decode_ldI) fun _ => rfl,
    decodes_of_encodes (encodes_top (t := 0xB#4) fun _ => decode_ldIV0) fun _ => rfl,
    decodes_of_encodes (encodes_top (t := 0xC#4) fun _ => decode_rnd) fun _ => rfl,
    decodes_of_encodes (encodes_top (t := 0xD#4) fun _ => decode_drw) fun _ => rfl⟩

theorem rowsHigh_decodes : ∀ r ∈ rowsHigh, r.decodes := by
  simp only [rowsHigh, List.forall_mem_cons, List.not_mem_nil, false_imp_iff, implies_true, and_true]
  exact ⟨decodes_of_encodes (encodes_top_nn (t := 0xE#4) (nn := 0x9E#8) fun _ => decode_skp) fun _ => rfl,
    decodes_of_encodes (encodes_top_nn (t := 0xE#4) (nn := 0xA1#8) fun _ => decode_sknp) fun _ => rfl,
    decodes_of_encodes (encodes_top_nn (t := 0xF#4) (nn := 0x07#8) fun _ => decode_ldVxDT) fun _ => rfl,
    decodes_of_encodes (encodes_top_nn (t := 0xF#4) (nn := 0x0A#8) fun _ => decode_ldVxK) fun _ => rfl,
    decodes_of_encodes (encodes_top_nn (t := 0xF#4) (nn := 0x15#8) fun _ => decode_ldDTVx) fun _ => rfl,
    decodes_of_encodes (encodes_top_nn (t := 0xF#4) (nn := 0x18#8) fun _ => decode_ldSTVx) fun _ => rfl,
    decodes_of_encodes (encodes_top_nn (t := 0xF#4) (nn := 0x1E#8) fun _ => decode_addI) fun _ => rfl,
    decodes_of_encodes (encodes_top_nn (t := 0xF#4) (nn := 0x29#8) fun _ => decode_ldF) fun _ => rfl,
    decodes_of_encodes (encodes_top_nn (t := 0xF#4) (nn := 0x33#8) fun _ => decode_ldB) fun _ => rfl,
    decodes_of_encodes (encodes_top_nn (t := 0xF#4) (nn := 0x55#8) fun _ => decode_storeRegs) fun _ => rfl,
    decodes_of_encodes (encodes_top_nn (t := 0xF#4) (nn := 0x65#8) fun _ => decode_loadRegs) fun _ => rfl⟩

theorem opcodeRows_decodes {r : OpcodeRow} (hr : r ∈ opcodeRows) : r.decodes := by
  simp only [opcodeRows, List.mem_append] at hr
  obtain ((hr | hr) | hr) | hr := hr
  · exact rowsLow_decodes r hr
  · exact rowsAlu_decodes r hr
  · exact rowsMid_decodes r hr
  · exact rowsHigh_decodes r hr

/-- A no-op the decoder answers carries the word it read, and a row that selected it would not have led to a no-op. -/
theorem isListed_of_decode_nop {w : Word} (h : decode op = .nop w) : isListed w = false := by
  have hw : w = op := by simpa [h, encode] using encode_decode op
  subst hw
  rw [isListed, List.any_eq_false]
  intro r hr hsel
  simpa [h, Instr.row] using opcodeRows_decodes hr w hsel

theorem decode_wellFormed (op : Word) : (decode op).wellFormed = true := by
  cases h : decode op with
  | nop w => simp [Instr.wellFormed, isListed_of_decode_nop h]
  | _ => rfl

end Sys2Proof

namespace Sys2Proof.Proofs
open Sys2Proof.Machine

/-- Settles O2, by the format of the instruction's row; a no-op is well-formed when no row selects its word. -/
theorem decodeOfEncodeIsIdentity : Obligations.DecodeOfEncodeIsIdentity := by
  intro i hi
  cases i with
  | cls => decide
  | ret => decide
  | jp nnn => exact decode_append_addr fun _ => decode_jp
  | call nnn => exact decode_append_addr fun _ => decode_call
  | seImm x nn => exact decode_append_byte fun _ => decode_seImm
  | sneImm x nn => exact decode_append_byte fun _ => decode_sneImm
  | seReg x y => exact decode_append_n fun _ => decode_seReg
  | ldImm x nn => exact decode_append_byte fun _ => decode_ldImm
  | addImm x nn => exact decode_append_byte fun _ => decode_addImm
  | ldReg x y => exact decode_append_n fun _ => decode_ldReg
  | orReg x y => exact decode_append_n fun _ => decode_orReg
  | andReg x y => exact decode_append_n fun _ => decode_andReg
  | xorReg x y => exact decode_append_n fun _ => decode_xorReg
  | addReg x y => exact decode_append_n fun _ => decode_addReg
  | subReg x y => exact decode_append_n fun _ => decode_subReg
  | shr x y => exact decode_append_n fun _ => decode_shr
  | subn x y => exact decode_append_n fun _ => decode_subn
  | shl x y => exact decode_append_n fun _ => decode_shl
  | sneReg x y => exact decode_append_n fun _ => decode_sneReg
  | ldI nnn => exact decode_append_addr fun _ => decode_ldI
  | ldIV0 nnn => exact decode_append_addr fun _ => decode_ldIV0
  | rnd x nn => exact decode_append_byte fun _ => decode_rnd
  | drw x y n => exact decode_append_nibbles fun _ => decode_drw
  | skp x => exact decode_append_nn fun _ => decode_skp
  | sknp x => exact decode_append_nn fun _ => decode_sknp
  | ldVxDT x => exact decode_append_nn fun _ => decode_ldVxDT
  | ldVxK x => exact decode_append_nn fun _ => decode_ldVxK
  | ldDTVx x => exact decode_append_nn fun _ => decode_ldDTVx
  | ldSTVx x => exact decode_append_nn fun _ => decode_ldSTVx
  | addI x => exact decode_append_nn fun _ => decode_addI
  | ldF x => exact decode_append_nn fun _ => decode_ldF
  | ldB x => exact decode_append_nn fun _ => decode_ldB
  | storeRegs x => exact decode_append_nn fun _ => decode_storeRegs
  | loadRegs x => exact decode_append_nn fun _ => decode_loadRegs
  | nop w => exact decode_of_not_listed ((Laws.TableRow.nop w).2 rfl hi)

/-- Settles O3: the branches of the decoder keep the word, and only an unlisted word reaches the no-op. -/
theorem encodeOfDecodeIsIdentity : Obligations.EncodeOfDecodeIsIdentity :=
  fun op => ⟨decode_wellFormed op, encode_decode op⟩

/-- Settles O4, row by row of the opcode map. -/
theorem decodingFollowsOpcodeMap : Obligations.DecodingFollowsOpcodeMap :=
  fun op => ⟨fun _ hr => opcodeRows_decodes hr op, decode_of_not_listed⟩

/-- Settles O1: the words are fixed, so the decoder is evaluated on them. -/
theorem sampleWordsDecode : Obligations.SampleWordsDecode := by
  unfold Obligations.SampleWordsDecode
  decide

end Sys2Proof.Proofs
end

section
/-! PROOFS. The invariant: it holds after reset (70_reset_and_hazards.md R271) and every step keeps it (10_state.md R25,
R29, R30, R40; 20_memory.md R67). -/
namespace Sys2Proof.Machine

variable {s : State}

/-! ## The invariant after one write -/

/-- The parts of the state the invariant does not speak of are free. -/
theorem State.Inv.of_eq {t : State} (h : s.Inv) (hcfg : t.cfg = s.cfg) (hmem : t.mem = s.mem) (hfb : t.fb = s.fb)
    (hpc : t.pc = s.pc) (hstack : t.stack = s.stack) : t.Inv := by
  obtain ⟨hm, hs, hp, hd, ha⟩ := h
  refine ⟨by rwa [hcfg, hmem], ?_, by rwa [State.pcInRange, hpc], ?_, by rwa [hstack]⟩
  · rwa [State.screenFull, State.rows, hcfg, hfb]
  · rwa [State.depth, hcfg, hstack]

theorem State.Inv.setRun (h : s.Inv) (r : RunState) : (s.setRun r).Inv := ⟨h.memory, h.screen, h.pc, h.stack⟩

theorem State.Inv.setFlag (h : s.Inv) (f : Bool) : (s.setFlag f).Inv := ⟨h.memory, h.screen, h.pc, h.stack⟩

theorem State.Inv.setPending (h : s.Inv) (ops : List HostOp) : (s.setPending ops).Inv :=
  ⟨h.memory, h.screen, h.pc, h.stack⟩

theorem State.Inv.setPc (h : s.Inv) {a : Word} (ha : a.toNat ≤ 0x1002) : (s.setPc a).Inv :=
  ⟨h.memory, h.screen, ha, h.stack⟩

theorem State.Inv.setStack (h : s.Inv) {l : List Word} (hdepth : l.length ≤ s.cfg.stackDepth)
    (hl : ∀ a ∈ l, a.toNat ≤ 0x1000) : (s.setStack l).Inv :=
  ⟨h.memory, h.screen, h.pc, hdepth, hl⟩

theorem State.Inv.setFb (h : s.Inv) {fb : List (List Bool)} (hfb : gridFull s.rows fb) : (s.setFb fb).Inv :=
  ⟨h.memory, hfb, h.pc, h.stack⟩

theorem State.Inv.storeBytes (h : s.Inv) {a : Nat} {bs : List Byte} (ha : a + bs.length ≤ memSize) :
    (s.storeBytes a bs).Inv :=
  ⟨Memory.wf_writeBytes h.memory ha, h.screen, h.pc, h.stack⟩

/-- A 12-bit address is in memory. -/
theorem addrWord_lt (nnn : Addr) : (addrWord nnn).toNat < memSize := addrWord_toNat nnn ▸ nnn.isLt

/-- Two past an address at most 0x1000, pc does not wrap (10_state.md R25). -/
theorem pc_add_two_toNat {a : Word} (ha : a.toNat ≤ 0x1000) : (a + 2).toNat = a.toNat + 2 := by
  bv_omega

theorem State.Inv.skipIf (h : s.Inv) (hpc : s.pc.toNat ≤ 0x1000) (b : Bool) : (s.skipIf b).Inv := by
  cases b with
  | false => exact h
  | true => exact h.setPc (by rw [pc_add_two_toNat hpc]; omega)

theorem State.Inv.drawSprite (h : s.Inv) (x y n : Nibble) : (s.drawSprite x y n).Inv :=
  (h.setFb (gridFull_drawCells h.screen)).setFlag _

theorem State.Inv.loadBlock (h : s.Inv) (base k : Nat) : (s.loadBlock base k).Inv :=
  h.of_eq (s.loadBlock_cfg base k) (s.loadBlock_mem base k) (s.loadBlock_fb base k) (s.loadBlock_pc base k)
    (s.loadBlock_stack base k)

/-! ## The invariant through an instruction

pc is already advanced, so it is at most 0x1000 where the instruction starts. -/

/-- The result is a next state with the invariant. -/
def answersInv (r : Result) : Prop := ∃ t, r = .next t ∧ t.Inv

theorem State.Inv.raise (h : s.Inv) (cause : FaultCause) (info : Nat) : answersInv (raise cause info s) :=
  ⟨_, raise_eq s cause info, h.setRun _⟩

/-- The effect of a checked access is needed only where the access is in memory. -/
theorem State.Inv.checkedAccess (h : s.Inv) {base last : Nat} {done : State} (hdone : last < memSize → done.Inv) :
    answersInv (checkedAccess base last s done) := by
  rcases checkedAccess_cases s base last done with ⟨hlast, hin⟩ | ⟨-, hout⟩
  · exact ⟨_, hin, hdone hlast⟩
  · exact ⟨_, hout, h.setRun _⟩

theorem State.Inv.skipOnKey (h : s.Inv) (hpc : s.pc.toNat ≤ 0x1000) (x : Nibble) (want : Bool) :
    answersInv (skipOnKey x want s) := by
  by_cases hx : 15 < (s.reg x).toNat
  · exact skipOnKey_fault s want hx ▸ h.raise _ _
  · exact ⟨_, skipOnKey_next s want hx, h.skipIf hpc _⟩

/-- The popped value was at most 0x1000, as every value on the stack is. -/
theorem State.Inv.exec_ret (h : s.Inv) : answersInv (exec .ret s) := by
  obtain ⟨hdepth, haddr⟩ := h.stack
  cases hs : s.stack with
  | nil => exact ⟨_, exec_ret_nil hs, h⟩
  | cons a rest =>
    rw [State.depth] at hdepth
    rw [hs] at hdepth haddr
    obtain ⟨ha, hrest⟩ := List.forall_mem_cons.1 haddr
    exact ⟨_, exec_ret_cons hs, (h.setStack (Nat.le_of_succ_le hdepth) hrest).setPc (ha.trans (by decide))⟩

/-- Below STACK_DEPTH there is room for one more, and what is pushed is the advanced pc. -/
theorem State.Inv.exec_call (h : s.Inv) (hpc : s.pc.toNat ≤ 0x1000) (nnn : Addr) : answersInv (exec (.call nnn) s) := by
  obtain ⟨hdepth, haddr⟩ := h.stack
  simp only [exec, execCall]
  split
  · exact h.raise _ _
  · next hne =>
    have hroom : s.depth < s.cfg.stackDepth := Nat.lt_of_le_of_ne hdepth hne
    have hpushed : (s.push s.pc).Inv := h.setStack hroom (List.forall_mem_cons.2 ⟨hpc, haddr⟩)
    exact ⟨_, rfl, hpushed.setPc ((addrWord_lt nnn).le.trans (by decide))⟩

theorem State.Inv.exec_drw (h : s.Inv) (x y n : Nibble) : answersInv (exec (.drw x y n) s) := by
  simp only [exec, execDrw]
  split
  · exact ⟨_, rfl, h.drawSprite x y n⟩
  · exact h.checkedAccess fun _ => h.drawSprite x y n

theorem State.Inv.exec (h : s.Inv) (hpc : s.pc.toNat ≤ 0x1000) (i : Instr) : answersInv (exec i s) := by
  cases i with
  | cls => exact ⟨_, rfl, h.setFb gridFull_blankScreen⟩
  | ret => exact h.exec_ret
  | jp nnn => exact ⟨_, rfl, h.setPc ((addrWord_lt nnn).le.trans (by decide))⟩
  | call nnn => exact h.exec_call hpc nnn
  | seImm x nn => exact ⟨_, rfl, h.skipIf hpc _⟩
  | sneImm x nn => exact ⟨_, rfl, h.skipIf hpc _⟩
  | seReg x y => exact ⟨_, rfl, h.skipIf hpc _⟩
  | sneReg x y => exact ⟨_, rfl, h.skipIf hpc _⟩
  | drw x y n => exact h.exec_drw x y n
  | skp x => exact h.skipOnKey hpc x true
  | sknp x => exact h.skipOnKey hpc x false
  | ldB x => exact h.checkedAccess fun hlast => h.storeBytes (by rw [bcdDigits_length]; omega)
  | storeRegs x => exact h.checkedAccess fun hlast => h.storeBytes (by rw [State.regsUpTo_length]; omega)
  | loadRegs x => exact h.checkedAccess fun _ => h.loadBlock _ _
  | _ => exact ⟨_, rfl, h.memory, h.screen, h.pc, h.stack⟩

/-! ## The invariant through an operation -/

theorem State.Inv.cycle (h : s.Inv) : answersInv (cycle s) := by
  by_cases hrun : s.run = .running
  case neg => exact ⟨_, cycle_idle s hrun, h⟩
  rcases Nat.lt_or_ge (s.pc.toNat + 1) memSize with hpc | hpc
  · have hin : s.pc.toNat + 1 < 4096 := hpc
    have hadv : (s.pc + 2).toNat ≤ 0x1000 := by rw [pc_add_two_toNat (by omega)]; omega
    exact cycle_exec hrun hpc ▸ (h.setPc (hadv.trans (by decide))).exec hadv _
  · exact ⟨_, cycle_fetch_fault hrun hpc, h.setRun _⟩

theorem State.Inv.runCycles (h : s.Inv) (n : Nat) : answersInv (runCycles n s) := by
  induction n generalizing s with
  | zero => exact ⟨_, rfl, h⟩
  | succ n ih =>
    obtain ⟨t, ht, hinv⟩ := h.cycle
    obtain ⟨u, hu, hinv'⟩ := ih hinv
    exact ⟨u, by simp only [Machine.runCycles, ht, hu], hinv'⟩

theorem State.construct_inv (c : Config) : (State.construct c).Inv :=
  ⟨State.construct_memory_wf c, gridFull_blankScreen, show 0x200 ≤ 0x1002 by decide, Nat.zero_le _,
    fun _ h => absurd h List.not_mem_nil⟩

theorem State.Inv.loadProgram (h : s.Inv) (bytes : List Byte) : (s.loadProgram bytes).Inv := by
  obtain ⟨hcfg, hmem, hpc, -, hfb, -, -, -, -, -, hstack, -⟩ := s.loadProgram_fields bytes
  have hfit : progBase + (bytes.take progMax).length ≤ memSize :=
    Nat.add_le_add_left (List.length_take_le progMax bytes) progBase
  refine ⟨?_, ?_, ?_, ?_⟩
  · rw [hcfg, hmem]
    exact Memory.wf_writeBytes h.memory hfit
  · rw [State.screenFull, State.rows, hcfg, hfb]
    exact h.screen
  · rw [State.pcInRange, hpc]
    decide
  · rw [State.stackInRange, State.depth, hcfg, hstack]
    split
    · exact ⟨Nat.zero_le _, fun _ ha => absurd ha List.not_mem_nil⟩
    · exact h.stack

theorem State.Inv.pressKey (h : s.Inv) (k : Nibble) (pressed : Bool) : (s.pressKey k pressed).Inv :=
  h.of_eq (s.pressKey_cfg k pressed) (s.pressKey_mem k pressed) (s.pressKey_fb k pressed) (s.pressKey_pc k pressed)
    (s.pressKey_stack k pressed)

theorem State.Inv.perform (h : s.Inv) (op : HostOp) : answersInv (perform op s) := by
  cases op with
  | reset =>
    obtain ⟨hm, hs, hp, hd⟩ := State.construct_inv s.cfg
    exact ⟨_, rfl, hm, hs, hp, hd⟩
  | load bytes => exact ⟨_, rfl, h.loadProgram bytes⟩
  | cycle => exact h.cycle
  | run n => exact h.runCycles n
  | tick => exact ⟨_, rfl, h.memory, h.screen, h.pc, h.stack⟩
  | key k pressed => exact ⟨_, rfl, h.pressKey k pressed⟩

theorem State.Inv.step (h : s.Inv) : answersInv (step s) := by
  unfold Machine.step nextOperation
  split
  · exact h.cycle
  · exact (h.setPending _).perform _

end Sys2Proof.Machine

namespace Sys2Proof.Proofs
open Sys2Proof.Machine

/-- Settles O56: every write an operation makes keeps the invariant, each where its own check has let it through; a
batch of cycles by induction on its length. -/
theorem everyStepKeepsInvariant : Obligations.EveryStepKeepsInvariant := by
  intro s t hinv hstep
  obtain ⟨t', ht', hinv'⟩ := hinv.step
  cases hstep.symm.trans ht'
  exact hinv'

/-- Settles O55: nothing is stored, the screen is blank, the stack is empty. -/
theorem invariantHoldsAtReset : Obligations.InvariantHoldsAtReset :=
  ⟨State.construct_inv defaultConfig, State.construct_inv⟩

end Sys2Proof.Proofs
end

section
/-! PROOFS. The statements about a step and about the host's operations (40_engine_operations.md): what a step runs
(R110, R113), RUN (R116), TICK (R117), KEY (R118), LOAD (R111), and RESET and construction
(70_reset_and_hazards.md R270, R271). -/
namespace Sys2Proof.Machine

variable (s : State)

/-! ## A step -/

/-- With nothing pending a step is a CYCLE (log 1). -/
theorem step_nil {s : State} (h : s.pending = []) : step s = cycle s := by
  simp only [step, nextOperation, h]

theorem step_cons {s : State} {op : HostOp} {rest : List HostOp} (h : s.pending = op :: rest) :
    step s = perform op (s.setPending rest) := by
  simp only [step, nextOperation, h]

/-- The two bytes at pc are decoded as the word a fetch reads. -/
theorem decodeBytes_fetchWord :
    decodeBytes [s.readByte s.pc.toNat, s.readByte (s.pc.toNat + 1)] = .ok (decode s.fetchWord, []) := rfl

/-! ## What TICK, KEY and LOAD leave unchanged -/

theorem State.unchangedBut_tick : unchangedBut [.dt, .st] s s.tick := by
  simp [unchangedBut]

theorem State.unchangedBut_pressKey (k : Nibble) (pressed : Bool) :
    unchangedBut [.keys, .regs, .run] s (s.pressKey k pressed) := by
  simp [unchangedBut]

theorem State.unchangedBut_loadProgram (bytes : List Byte) :
    unchangedBut [.pc, .run, .mem, .regs, .index, .stack, .dt, .st] s (s.loadProgram bytes) := by
  obtain ⟨hcfg, -, -, -, hfb, hkey, hpending, hrnd, -⟩ := s.loadProgram_fields bytes
  simp [unchangedBut, State.keyHeld, hcfg, hfb, hkey, hpending, hrnd]

/-! ## KEY: when it resolves a wait (40_engine_operations.md R118) -/

variable {s}

/-- A release, or a press outside a wait, only sets the snapshot. -/
theorem State.pressKey_not_waiting {k : Nibble} {pressed : Bool}
    (h : pressed = false ∨ ∀ r, s.run ≠ .waitingForKeyPress r) : s.pressKey k pressed = s.setKey k pressed := by
  cases pressed with
  | false => rfl
  | true =>
    rcases (s.setKey k true).resolveWait_cases k with ⟨r, hwait, -⟩ | ⟨-, hstay⟩
    · exact absurd hwait ((or_iff_right (by decide)).1 h r)
    · exact hstay

/-! ## The register file at reset -/

variable (s)

theorem State.reg_of_v_eq {t : State} (h : t.v = s.v) (z : Nibble) : t.reg z = s.reg z := by
  simp only [State.reg, h]

theorem State.reg_of_v_zero (h : s.v = Vector.replicate nregs 0) (z : Nibble) : s.reg z = 0 := by
  simp only [State.reg, h, Vector.getElem_replicate]

theorem State.construct_pixel (c : Config) (x y : Nat) : (State.construct c).pixel x y = false := cellAt_blankScreen

/-! ## RUN (40_engine_operations.md R116) -/

/-- Every cycle answers a next state (60_exceptions.md R243). -/
theorem cycle_next : ∃ t, cycle s = .next t := (cycle_keepsCfg s).imp fun _ h => h.1

variable {s} {t : State}

theorem runCycles_succ (n : Nat) (h : cycle s = .next t) : runCycles (n + 1) s = runCycles n t := by
  simp only [runCycles, h]

theorem runResults_succ (n : Nat) (h : cycle s = .next t) :
    runResults (n + 1) s = cycleResult s t :: runResults n t := by
  simp only [runResults, h]

theorem runCycles_one (s : State) : runCycles 1 s = cycle s := by
  obtain ⟨t, ht⟩ := cycle_next s
  rw [runCycles_succ 0 ht, ht]
  rfl

/-- RUN of a sum is one RUN after the other. -/
theorem runCycles_add (m n : Nat) (s : State) : ∃ t, runCycles m s = .next t ∧ runCycles (m + n) s = runCycles n t ∧
    runResults (m + n) s = runResults m s ++ runResults n t := by
  induction m generalizing s with
  | zero => exact ⟨s, rfl, by rw [Nat.zero_add], by rw [Nat.zero_add]; rfl⟩
  | succ m ih =>
    obtain ⟨u, hu⟩ := cycle_next s
    obtain ⟨t, ht, hrun, hres⟩ := ih u
    refine ⟨t, (runCycles_succ m hu).trans ht, ?_, ?_⟩
    · rw [Nat.succ_add, runCycles_succ _ hu, hrun]
    · rw [Nat.succ_add, runResults_succ _ hu, runResults_succ _ hu, hres, List.cons_append]

theorem runResults_idle (h : s.run ≠ .running) (n : Nat) : runResults n s = List.replicate n .idle := by
  induction n with
  | zero => rfl
  | succ n ih => rw [runResults_succ n (cycle_idle s h), cycleResult_idle s h, ih, List.replicate_succ]

theorem runResults_length (n : Nat) (s : State) : (runResults n s).length = n := by
  induction n generalizing s with
  | zero => rfl
  | succ n ih =>
    obtain ⟨t, ht⟩ := cycle_next s
    rw [runResults_succ n ht, List.length_cons, ih]

end Sys2Proof.Machine

namespace Sys2Proof.Proofs
open Sys2Proof.Machine

/-- Settles O8: the two cases of the list of pending operations. -/
theorem stepPerformsNextOperation : Obligations.StepPerformsNextOperation :=
  ⟨fun _ _ _ => step_cons, fun _ => step_nil, fun _ => rfl⟩

/-- Settles O5: the step is a CYCLE, and the instruction it runs is the one the two bytes at pc decode to. -/
theorem stepRunsDecodedInstruction : Obligations.StepRunsDecodedInstruction := by
  intro s i hpending hrun hpc hbytes
  cases (decodeBytes_fetchWord s).symm.trans hbytes
  exact (step_nil hpending).trans (cycle_exec hrun hpc)

/-- Settles O10: TICK is one floored decrement of each timer. -/
theorem tickDecrementsTimers : Obligations.TickDecrementsTimers :=
  fun s => ⟨s.tick, rfl, tickDown_toNat s.dt, tickDown_toNat s.st, s.unchangedBut_tick⟩

/-- Settles O11: the snapshot is set in either case; a press in a wait writes the key's index and resumes, anything else
writes the snapshot alone. -/
theorem keySetsSnapshotAndResolvesWait : Obligations.KeySetsSnapshotAndResolvesWait := by
  intro s k pressed
  refine ⟨s.pressKey k pressed, rfl, ?_, fun j hj => ?_, s.unchangedBut_pressKey k pressed, fun r hpress hwait => ?_,
    fun hno => ?_⟩
  · rw [State.pressKey_keyHeld, if_pos rfl]
  · rw [State.pressKey_keyHeld, if_neg hj]
  · rw [hpress, State.pressKey_waiting hwait]
    refine ⟨rfl, ?_, fun z hz => ?_⟩
    · rw [State.setRun_reg, State.setReg_reg_same, keyIndex_toNat]
    · rw [State.setRun_reg, State.setReg_reg_of_ne _ hz, State.setKey_reg]
  · rw [State.pressKey_not_waiting hno]
    exact ⟨rfl, fun _ => rfl⟩

/-- Settles O13, field by field of what LOAD leaves, for either value of LOAD_RESETS_CPU. -/
theorem loadStartsProgram : Obligations.LoadStartsProgram := by
  intro s bytes
  obtain ⟨-, -, hpc, hrun, -, -, -, -, hv, hindex, hstack, hdt, hst⟩ := s.loadProgram_fields bytes
  refine ⟨s.loadProgram bytes, rfl, hpc, hrun, s.unchangedBut_loadProgram bytes, fun hclear => ?_, fun hkeep => ?_⟩
  · simp only [hclear, if_true] at hv hindex hstack hdt hst
    exact ⟨State.reg_of_v_zero _ hv, hindex, hstack, hdt, hst⟩
  · simp only [hkeep, Bool.false_eq_true, if_false] at hv hindex hstack hdt hst
    exact ⟨s.reg_of_v_eq hv, hindex, hstack, hdt, hst⟩

/-- Settles O14: RESET leaves a newly constructed engine with the parameters, the pending operations and the random
count of the old one. -/
theorem resetRestoresEveryPiece : Obligations.ResetRestoresEveryPiece := by
  intro s
  obtain ⟨hreg, hfont, hzeros, hindex, hpc, hstack, hdt, hst, hrun⟩ := constructionGivesResetValues s.cfg
  exact ⟨s.resetEngine, rfl, hreg, hindex, hpc, hstack, hdt, hst, hrun, State.construct_pixel s.cfg,
    gridFull_blankScreen, State.construct_keyHeld s.cfg, hfont, hzeros, rfl, rfl, rfl⟩

/-- Settles O16: the default parameters are read off, and every constructed engine has the blank screen and no key. -/
theorem resetUsesDefaultParameters : Obligations.ResetUsesDefaultParameters :=
  ⟨rfl, rfl, rfl, rfl, rfl, fun c => ⟨gridFull_blankScreen, State.construct_pixel c, State.construct_keyHeld c⟩⟩

/-- Settles O17: each clause by induction on the number of cycles, every cycle answering a next state. -/
theorem runIsRepeatedCycles : Obligations.RunIsRepeatedCycles :=
  ⟨fun _ _ => rfl, fun _ => rfl, runCycles_one, fun _ _ => runResults_succ 0, runCycles_add,
    fun n _ hidle => ⟨runCycles_idle hidle n, runResults_idle hidle n⟩, runResults_length⟩

end Sys2Proof.Proofs
end

section
/-! PROOFS. The statements about the call (41_flow.md R142), the bitwise operations and the shifts (42_alu.md R166 to
R168, R171, R173), the add to I (43_index_memory.md R182), the random byte and the skips on a key (45_io_timers.md R210
to R212). -/
namespace Sys2Proof.Machine

variable {s : State} {x k : Nibble}

/-! ## The call -/

theorem exec_call_push {nnn : Addr} (h : s.depth ≠ s.cfg.stackDepth) :
    exec (.call nnn) s = .next ((s.push s.pc).setPc (addrWord nnn)) := if_neg h

theorem exec_call_overflow {nnn : Addr} (h : s.depth = s.cfg.stackDepth) :
    exec (.call nnn) s = .next (s.setRun (.halted .stackOverflow (s.pc - 2) nnn.toNat)) := if_pos h

/-! ## The bitwise operations -/

/-- One register write of a byte whose bits are known. -/
theorem State.setReg_bits (s : State) (x : Nibble) {r : Byte} {bit : Nat → Bool} (hr : ∀ i, r.getLsbD i = bit i) :
    (∀ i, ((s.setReg x r).reg x).getLsbD i = bit i) ∧ (∀ z, z ≠ x → (s.setReg x r).reg z = s.reg z) ∧
      unchangedBut [.regs] s (s.setReg x r) := by
  refine ⟨fun i => ?_, fun _ => s.setReg_reg_of_ne, s.unchangedBut_setReg x r⟩
  rw [s.setReg_reg_same, hr]

/-! ## The shifts -/

/-- One write of a result and a flag whose values are known; VF holds the flag for `x = 15` too (42_alu.md R162). -/
theorem State.setResultFlag_values (s : State) (x : Nibble) {r : Byte} {f : Bool} {flag result : Nat}
    (hf : (flagByte f).toNat = flag) (hr : r.toNat = result) :
    ((s.setResultFlag x r f).reg 0xF#4).toNat = flag ∧
      (x ≠ 0xF#4 → ((s.setResultFlag x r f).reg x).toNat = result) ∧
      (∀ z, z ≠ x → z ≠ 0xF#4 → (s.setResultFlag x r f).reg z = s.reg z) ∧
      unchangedBut [.regs] s (s.setResultFlag x r f) := by
  refine ⟨?_, fun hx => ?_, fun _ => s.setResultFlag_reg_of_ne, s.unchangedBut_setResultFlag x r f⟩
  · rw [s.setResultFlag_reg_flag, hf]
  · rw [s.setResultFlag_reg_result hx, hr]

theorem byte_shiftRight_one_toNat (a : Byte) : (a >>> 1).toNat = a.toNat / 2 := by
  rw [BitVec.toNat_ushiftRight, Nat.shiftRight_eq_div_pow, pow_one]

theorem byte_shiftLeft_one_toNat (a : Byte) : (a <<< 1).toNat = a.toNat * 2 % 256 := by
  rw [BitVec.toNat_shiftLeft, Nat.shiftLeft_eq, pow_one]

/-! ## The random byte -/

/-- A byte under a mask has no bit outside the mask. -/
theorem byte_and_and_not (b m : Byte) : (b &&& m) &&& ~~~m = 0 := by
  rw [BitVec.and_assoc, BitVec.and_not_self]
  exact BitVec.and_zero

theorem State.unchangedBut_setReg_setRndCount (s : State) (x : Nibble) (b : Byte) (n : Nat) :
    unchangedBut [.regs, .random] s ((s.setReg x b).setRndCount n) := by
  simp [unchangedBut]

/-! ## Skips on a key -/

/-- Both skips on a key index: pc moves on iff the key's state is the wanted one. -/
theorem skipOnKey_pc (h : (s.reg x).toNat = k.toNat) (want : Bool) : ∃ t, skipOnKey x want s = .next t ∧
    t.pc = (if s.keyHeld k = want then s.pc + 2 else s.pc) ∧ unchangedBut [.pc] s t := by
  have hindex : ¬ 15 < (s.reg x).toNat := by omega
  refine ⟨_, skipOnKey_next s want hindex, ?_, s.unchangedBut_skipIf _⟩
  rw [keySlot_eq h, State.skipIf_pc]
  simp only [beq_iff_eq]

/-- Both skips on a register above 15. -/
theorem skipOnKey_halts (h : 15 < (s.reg x).toNat) (want : Bool) : ∃ t, skipOnKey x want s = .next t ∧
    t.run = .halted .invalidKeyIndex (s.pc - 2) (s.reg x).toNat ∧ unchangedBut [.run] s t :=
  ⟨_, skipOnKey_fault s want h, rfl, s.unchangedBut_setRun _⟩

end Sys2Proof.Machine

namespace Sys2Proof.Proofs
open Sys2Proof.Machine

/-- Settles O20: the two cases of the depth. -/
theorem callPushesReturnAddress : Obligations.CallPushesReturnAddress := by
  refine ⟨encodes_top (t := 0x2#4) fun _ => decode_call, fun nnn s h => ?_, fun nnn s h => ?_⟩
  · exact ⟨_, exec_call_push h, rfl, addrWord_toNat nnn, s.unchangedBut_setStack_setPc _ _⟩
  · exact ⟨_, exec_call_overflow h, rfl, s.unchangedBut_setRun _⟩

/-- Settles O26: each operation is one register write, of a byte computed bit by bit. -/
theorem logicOperationsAreBitwise : Obligations.LogicOperationsAreBitwise := by
  refine ⟨encodes_top_n (t := 0x8#4) (n := 0x1#4) fun _ => decode_orReg,
    encodes_top_n (t := 0x8#4) (n := 0x2#4) fun _ => decode_andReg,
    encodes_top_n (t := 0x8#4) (n := 0x3#4) fun _ => decode_xorReg, fun x y s => ?_, fun x y s => ?_, fun x y s => ?_⟩
  · exact ⟨_, rfl, s.setReg_bits x fun _ => BitVec.getLsbD_or⟩
  · exact ⟨_, rfl, s.setReg_bits x fun _ => BitVec.getLsbD_and⟩
  · exact ⟨_, rfl, s.setReg_bits x fun _ => BitVec.getLsbD_xor⟩

/-- Settles O29: the shifted byte is written first and the bit shifted out second, so VF holds the bit for `x = 15`
too. -/
theorem shiftsMoveBitIntoVF : Obligations.ShiftsMoveBitIntoVF := by
  refine ⟨encodes_top_n (t := 0x8#4) (n := 0x6#4) fun _ => decode_shr,
    encodes_top_n (t := 0x8#4) (n := 0xE#4) fun _ => decode_shl, fun x y s a ha => ?_, fun x y s a ha => ?_⟩
  · obtain rfl : a = s.shiftOperand x y := ha
    exact ⟨_, rfl, s.setResultFlag_values x (flagByte_shiftOutRight _) (byte_shiftRight_one_toNat _)⟩
  · obtain rfl : a = s.shiftOperand x y := ha
    exact ⟨_, rfl, s.setResultFlag_values x (flagByte_shiftOutLeft _) (byte_shiftLeft_one_toNat _)⟩

/-- Settles O31: one write of I, of a 16-bit sum, which wraps. -/
theorem addToIndexWraps : Obligations.AddToIndexWraps := by
  refine ⟨encodes_top_nn (t := 0xF#4) (nn := 0x1E#8) fun _ => decode_addI, fun x s => ?_⟩
  refine ⟨_, rfl, ?_, s.unchangedBut_setIndex _⟩
  rw [State.setIndex_index, BitVec.toNat_add, byteWord_toNat]

/-- Settles O43: one register write of the free byte under the mask, and one count of it. -/
theorem randomByteIsMasked : Obligations.RandomByteIsMasked := by
  refine ⟨encodes_top (t := 0xC#4) fun _ => decode_rnd, fun x nn s => ?_⟩
  have hreg : (s.maskRandom x nn s.nextRandom).reg x = Config.randomByte s.rndCount &&& nn := s.setReg_reg_same _ _
  refine ⟨_, rfl, hreg, ?_, rfl, fun _ => s.setReg_reg_of_ne, s.unchangedBut_setReg_setRndCount _ _ _⟩
  rw [State.setRndCount_reg, hreg, byte_and_and_not]

/-- Settles O44: both instructions are one skip on a key, with opposite wanted states. -/
theorem skipOnKeyState : Obligations.SkipOnKeyState := by
  refine ⟨encodes_top_nn (t := 0xE#4) (nn := 0x9E#8) fun _ => decode_skp,
    encodes_top_nn (t := 0xE#4) (nn := 0xA1#8) fun _ => decode_sknp, fun x k s hk => ⟨skipOnKey_pc hk true, ?_⟩,
    fun x s hx => ⟨skipOnKey_halts hx true, skipOnKey_halts hx false⟩⟩
  obtain ⟨t, ht, hpc, hframe⟩ := skipOnKey_pc hk false
  refine ⟨t, ht, hpc.trans ?_, hframe⟩
  cases s.keyHeld k <;> rfl

end Sys2Proof.Proofs
end

section
/-! PROOFS. The statements about stores and loads (43_index_memory.md R184 to R186): the digits, the register blocks,
their round trip, and the fetch of a stored word (20_memory.md R73). -/
namespace Sys2Proof.Machine

variable (s : State)

/-! ## Storing bytes -/

theorem State.unchangedBut_storeBytes (a : Nat) (bs : List Byte) : unchangedBut [.mem] s (s.storeBytes a bs) := by
  simp [unchangedBut]

theorem State.unchangedBut_loadBlock (base k : Nat) : unchangedBut [.regs] s (s.loadBlock base k) := by
  simp [unchangedBut]

variable {s} {a k : Nat} {bs : List Byte}

theorem State.storeBytes_readByte_at (hk : k < bs.length) : (s.storeBytes a bs).readByte (a + k) = bs.getD k 0 := by
  rw [State.storeBytes_readByte, if_pos ⟨Nat.le_add_right a k, Nat.add_lt_add_left hk a⟩, Nat.add_sub_cancel_left]

theorem State.storeBytes_readByte_other {b : Nat} (hb : b < a ∨ a + bs.length ≤ b) :
    (s.storeBytes a bs).readByte b = s.readByte b := by
  rw [State.storeBytes_readByte, if_neg]
  rintro ⟨hlo, hhi⟩
  exact hb.elim hlo.not_gt hhi.not_ge

/-- What every access that leaves memory does (60_exceptions.md R231, R232). -/
theorem checkedAccess_faults {base last : Nat} {done : State} (h : memSize ≤ last) :
    ∃ t, checkedAccess base last s done = .next t ∧
      t.run = .halted .outOfBoundsMemoryAccess (s.pc - 2) (max base memSize) ∧ unchangedBut [.run] s t :=
  ⟨_, checkedAccess_out s h, rfl, s.unchangedBut_setRun _⟩

/-! ## The decimal digits of a byte -/

theorem bcdDigits_hundreds (b : Byte) : ((bcdDigits b).getD 0 0).toNat = b.toNat / 100 :=
  Nat.mod_eq_of_lt (show b.toNat / 100 < 2 ^ 8 by omega)

theorem bcdDigits_tens (b : Byte) : ((bcdDigits b).getD 1 0).toNat = b.toNat / 10 % 10 :=
  Nat.mod_eq_of_lt (show b.toNat / 10 % 10 < 2 ^ 8 by omega)

theorem bcdDigits_ones (b : Byte) : ((bcdDigits b).getD 2 0).toNat = b.toNat % 10 :=
  Nat.mod_eq_of_lt (show b.toNat % 10 < 2 ^ 8 by omega)

/-! ## Register blocks -/

variable {x : Nibble}

theorem exec_storeRegs (h : s.base + x.toNat < memSize) :
    exec (.storeRegs x) s = .next (s.storeBytes s.base (s.regsUpTo x)) := checkedAccess_in s h

theorem exec_loadRegs (h : s.base + x.toNat < memSize) :
    exec (.loadRegs x) s = .next (s.loadBlock s.base (x.toNat + 1)) := checkedAccess_in s h

theorem State.storeBytes_regsUpTo_readByte {z : Nibble} (hz : z.toNat ≤ x.toNat) :
    (s.storeBytes a (s.regsUpTo x)).readByte (a + z.toNat) = s.reg z := by
  rw [State.storeBytes_readByte_at (by rw [State.regsUpTo_length]; omega), s.regsUpTo_getD x z hz]

theorem State.loadBlock_reg_loaded {z : Nibble} (hz : z.toNat ≤ x.toNat) :
    (s.loadBlock a (x.toNat + 1)).reg z = s.readByte (a + z.toNat) := by
  rw [s.loadBlock_reg a _ (by omega), if_pos (Nat.lt_succ_of_le hz)]

theorem State.loadBlock_reg_above {z : Nibble} (hz : x.toNat < z.toNat) :
    (s.loadBlock a (x.toNat + 1)).reg z = s.reg z := by
  rw [s.loadBlock_reg a _ (by omega), if_neg (by omega)]

/-- The word a fetch reads at an address. -/
theorem State.setPc_fetchWord (s : State) (p : Word) :
    (s.setPc p).fetchWord = wordOfBytes (s.readByte p.toNat) (s.readByte (p.toNat + 1)) := rfl

/-- The register after one that is not the last. -/
theorem nibble_succ_toNat {k : Nibble} (h : k.toNat + 1 ≤ x.toNat) : (k + 1).toNat = k.toNat + 1 := by
  bv_omega

end Sys2Proof.Machine

namespace Sys2Proof.Proofs
open Sys2Proof.Machine

/-- Settles O33: three consecutive bytes are stored, or the check of the last address faults. -/
theorem storeDecimalDigits : Obligations.StoreDecimalDigits := by
  refine ⟨encodes_top_nn (t := 0xF#4) (nn := 0x33#8) fun _ => decode_ldB, fun x s hin => ?_,
    fun x s hout => checkedAccess_faults hout⟩
  have hlen := bcdDigits_length (s.reg x)
  refine ⟨_, checkedAccess_in s hin, ?_, ?_, ?_, fun a ha => State.storeBytes_readByte_other (hlen ▸ ha),
    s.unchangedBut_storeBytes _ _⟩
  · exact (congrArg BitVec.toNat (State.storeBytes_readByte_at (hlen ▸ by decide))).trans (bcdDigits_hundreds _)
  · exact (congrArg BitVec.toNat (State.storeBytes_readByte_at (hlen ▸ by decide))).trans (bcdDigits_tens _)
  · exact (congrArg BitVec.toNat (State.storeBytes_readByte_at (hlen ▸ by decide))).trans (bcdDigits_ones _)

/-- Settles O34: the block of registers is stored as consecutive bytes, or the check of the last address faults. -/
theorem storeRegisterBlock : Obligations.StoreRegisterBlock := by
  refine ⟨encodes_top_nn (t := 0xF#4) (nn := 0x55#8) fun _ => decode_storeRegs, fun x s hin => ?_,
    fun x s hout => checkedAccess_faults hout⟩
  refine ⟨_, exec_storeRegs hin, fun z => State.storeBytes_regsUpTo_readByte, fun a ha => ?_,
    s.unchangedBut_storeBytes _ _⟩
  refine State.storeBytes_readByte_other (ha.imp_right fun h => ?_)
  rw [State.regsUpTo_length]
  exact h

/-- Settles O35: the block is loaded from consecutive bytes, or the check of the last address faults. -/
theorem loadRegisterBlock : Obligations.LoadRegisterBlock := by
  refine ⟨encodes_top_nn (t := 0xF#4) (nn := 0x65#8) fun _ => decode_loadRegs, fun x s hin => ?_,
    fun x s hout => checkedAccess_faults hout⟩
  exact ⟨_, exec_loadRegs hin, fun z => State.loadBlock_reg_loaded, fun z => State.loadBlock_reg_above,
    s.unchangedBut_loadBlock _ _⟩

/-- Settles O36: each register is loaded from the byte it was stored at, since the two blocks start at the same I. -/
theorem storeThenLoadRoundTrips : Obligations.StoreThenLoadRoundTrips := by
  intro x s u hin
  refine ⟨_, exec_storeRegs hin, fun hmem hindex => ?_⟩
  have hbase : u.base = s.base := congrArg BitVec.toNat hindex
  refine ⟨_, exec_loadRegs (hbase ▸ hin), fun z hz => ?_⟩
  rw [State.loadBlock_reg_loaded hz, hmem, hbase, State.storeBytes_regsUpTo_readByte hz]

/-- Settles O37: the two bytes of the fetch are those of two consecutive registers of the block. -/
theorem fetchSeesStoredBytes : Obligations.FetchSeesStoredBytes := by
  intro x k s a hin hk ha
  have hsucc := nibble_succ_toNat hk
  refine ⟨_, exec_storeRegs hin, ?_⟩
  rw [State.setPc_fetchWord, ha, Nat.add_assoc, ← hsucc, State.storeBytes_regsUpTo_readByte (by omega),
    State.storeBytes_regsUpTo_readByte (by omega)]

end Sys2Proof.Proofs
end

section
/-! PROOFS. The statements about sprites (44_display.md R204, R206) and the framebuffer read-out
(40_engine_operations.md R119). -/
namespace Sys2Proof.Machine

/-! ## Flags -/

theorem flagByte_eq_one_iff {f : Bool} : flagByte f = 1 ↔ f = true := by
  cases f <;> decide

theorem flagByte_eq_zero_iff {f : Bool} : flagByte f = 0 ↔ f = false := by
  cases f <;> decide

/-! ## A sprite (44_display.md R204) -/

variable {s : State} {x y n : Nibble} {px py : Nat}

/-- Without rows no byte is read, and with the last row in memory every byte is there. -/
theorem exec_drw_draws (h : n = 0 ∨ s.base + n.toNat - 1 < memSize) :
    exec (.drw x y n) s = .next (s.drawSprite x y n) := by
  simp only [exec, execDrw]
  split
  · rfl
  · next hn => exact checkedAccess_in s (h.resolve_left hn)

theorem exec_drw_checks (h : n ≠ 0) :
    exec (.drw x y n) s = checkedAccess s.base (s.base + n.toNat - 1) s (s.drawSprite x y n) := if_neg h

theorem State.drawSprite_screenFull (h : s.screenFull) : (s.drawSprite x y n).screenFull := gridFull_drawCells h

/-- On the screen the cells a sprite draws are those it covers. -/
theorem State.mem_spriteCells_of_onScreen (hx : px < 64) (hy : py < s.rows) :
    (px, py) ∈ s.spriteCells x y n ↔ s.spriteCovers x y n px py := by
  rw [s.mem_spriteCells]
  exact ⟨fun h => h.2.2, fun h => ⟨hx, hy, h⟩⟩

theorem State.drawSprite_pixel_iff (h : s.screenFull) (hx : px < 64) (hy : py < s.rows) :
    (s.drawSprite x y n).pixel px py = true ↔ ¬(s.pixel px py = true ↔ s.spriteCovers x y n px py) := by
  rw [s.drawSprite_pixel x y n h, Bool.xor_iff_ne, ne_eq, Bool.eq_iff_iff, decide_eq_true_iff,
    State.mem_spriteCells_of_onScreen hx hy]

theorem State.drawSprite_collision_iff (h : s.screenFull) :
    (drawCells s.rows s.fb (s.spriteCells x y n)).2 = true ↔ s.spriteHits x y n true := by
  rw [s.drawSprite_collision x y n h, List.any_eq_true]
  constructor
  · rintro ⟨⟨px, py⟩, hmem, hset⟩
    obtain ⟨hx, hy, hcov⟩ := (s.mem_spriteCells x y n px py).1 hmem
    exact ⟨px, py, hx, hy, hcov, hset⟩
  · rintro ⟨px, py, hx, hy, hcov, hset⟩
    exact ⟨(px, py), (s.mem_spriteCells x y n px py).2 ⟨hx, hy, hcov⟩, hset⟩

theorem State.drawSprite_flag (s : State) (x y n : Nibble) :
    (s.drawSprite x y n).reg 0xF#4 = flagByte (drawCells s.rows s.fb (s.spriteCells x y n)).2 := by
  rw [State.drawSprite_reg, if_pos rfl]

theorem State.drawSprite_flag_eq_one_iff (h : s.screenFull) :
    (s.drawSprite x y n).reg 0xF#4 = 1 ↔ s.spriteHits x y n true := by
  rw [State.drawSprite_flag, flagByte_eq_one_iff, State.drawSprite_collision_iff h]

theorem State.drawSprite_flag_eq_zero_iff (h : s.screenFull) :
    (s.drawSprite x y n).reg 0xF#4 = 0 ↔ ¬ s.spriteHits x y n true := by
  rw [State.drawSprite_flag, flagByte_eq_zero_iff, ← Bool.not_eq_true, State.drawSprite_collision_iff h]

theorem State.drawSprite_reg_of_ne {z : Nibble} (hz : z ≠ 0xF#4) : (s.drawSprite x y n).reg z = s.reg z := by
  rw [State.drawSprite_reg, if_neg hz]

theorem State.unchangedBut_drawSprite (s : State) (x y n : Nibble) :
    unchangedBut [.screen, .regs] s (s.drawSprite x y n) := by
  simp [unchangedBut]

/-! ## The same sprite again (44_display.md R206) -/

/-- A sprite whose origin is not in VF covers the same cells after it is drawn. -/
theorem State.drawSprite_spriteCovers (hx : x ≠ 0xF#4) (hy : y ≠ 0xF#4) :
    (s.drawSprite x y n).spriteCovers x y n px py ↔ s.spriteCovers x y n px py := by
  simp only [State.spriteCovers, State.drawSprite_reg_of_ne hx, State.drawSprite_reg_of_ne hy, State.base,
    State.drawSprite_index, State.drawSprite_readByte, State.drawSprite_rows]

theorem State.drawSprite_twice_pixel (h : s.screenFull) (hvx : x ≠ 0xF#4) (hvy : y ≠ 0xF#4) (hx : px < 64)
    (hy : py < s.rows) : ((s.drawSprite x y n).drawSprite x y n).pixel px py = s.pixel px py := by
  rw [Bool.eq_iff_iff, State.drawSprite_pixel_iff (State.drawSprite_screenFull h) hx hy,
    State.drawSprite_spriteCovers hvx hvy, State.drawSprite_pixel_iff h hx hy]
  tauto

/-- A covered cell shows the opposite after the draw, so the second draw hits what the first found clear. -/
theorem State.drawSprite_spriteHits (h : s.screenFull) (hvx : x ≠ 0xF#4) (hvy : y ≠ 0xF#4) :
    (s.drawSprite x y n).spriteHits x y n true ↔ s.spriteHits x y n false := by
  refine exists₂_congr fun px py => and_congr_right fun hx => and_congr_right fun hy => ?_
  rw [State.drawSprite_spriteCovers hvx hvy]
  refine and_congr_right fun hcov => ?_
  rw [State.drawSprite_pixel_iff h hx hy, iff_true_right hcov, Bool.not_eq_true]

/-! ## The read-out (40_engine_operations.md R119) -/

/-- Rows of one width, one after another: cell `px` of row `py` stands at `py` widths and `px`. -/
theorem getD_flatten_of_width {w : Nat} {fb : List (List Bool)} (h : ∀ row ∈ fb, row.length = w) (hx : px < w) :
    fb.flatten.getD (py * w + px) false = cellAt fb px py := by
  induction fb generalizing py with
  | nil => rfl
  | cons row rest ih =>
    obtain ⟨hrow, hrest⟩ := List.forall_mem_cons.1 h
    cases py with
    | zero =>
      rw [Nat.zero_mul, Nat.zero_add, List.flatten_cons, List.getD_append _ _ _ _ (hrow ▸ hx)]
      rfl
    | succ py =>
      have hskip : (py + 1) * w + px - row.length = py * w + px := by
        rw [hrow, Nat.succ_mul]
        omega
      rw [List.flatten_cons, List.getD_append_right _ _ _ _ (by rw [hrow, Nat.succ_mul]; omega), hskip, ih hrest]
      rfl

theorem length_flatten_of_width {w : Nat} {fb : List (List Bool)} (h : ∀ row ∈ fb, row.length = w) :
    fb.flatten.length = w * fb.length := by
  rw [List.length_flatten, List.map_congr_left h, List.map_const', List.sum_replicate, smul_eq_mul, Nat.mul_comm]

end Sys2Proof.Machine

namespace Sys2Proof.Proofs
open Sys2Proof.Machine

/-- Settles O40: the sprite's cells are drawn once each, so each is toggled and the flag says whether one was set. -/
theorem drawSpriteXorsAndReportsCollision : Obligations.DrawSpriteXorsAndReportsCollision := by
  refine ⟨encodes_top (t := 0xD#4) fun _ => decode_drw, fun x y n s hfull hin => ?_, fun x y n s hn hout => ?_⟩
  · exact ⟨_, exec_drw_draws hin, State.drawSprite_screenFull hfull, fun _ _ => State.drawSprite_pixel_iff hfull,
      (State.drawSprite_flag_eq_one_iff hfull).2, (State.drawSprite_flag_eq_zero_iff hfull).2,
      fun _ => State.drawSprite_reg_of_ne, s.unchangedBut_drawSprite x y n⟩
  · exact exec_drw_checks hn ▸ checkedAccess_faults hout

/-- Settles O41: the second draw covers the cells of the first, toggles them back, and hits those that were clear. -/
theorem drawTwiceRestoresScreen : Obligations.DrawTwiceRestoresScreen := by
  intro x y n s hfull hin hvx hvy
  refine ⟨_, _, exec_drw_draws hin, exec_drw_draws hin, fun _ _ => State.drawSprite_twice_pixel hfull hvx hvy,
    State.drawSprite_flag_eq_one_iff hfull, ?_⟩
  rw [State.drawSprite_flag_eq_one_iff (State.drawSprite_screenFull hfull), State.drawSprite_spriteHits hfull hvx hvy]

/-- Settles O42: the read-out is the rows one after another, each COLS cells long. -/
theorem framebufferReadOutIsRowMajor : Obligations.FramebufferReadOutIsRowMajor := by
  intro s hfull
  obtain ⟨hlen, hwidth⟩ := hfull
  refine ⟨?_, fun b hb => ?_, fun x y hx hy => ?_⟩
  · rw [State.framebufferOut, List.length_map, length_flatten_of_width hwidth, hlen]
  · obtain ⟨cell, -, rfl⟩ := List.mem_map.1 hb
    exact (flagByte_cases cell).imp And.right And.right
  · calc s.framebufferOut.getD (y * 64 + x) 0
        = flagByte (s.fb.flatten.getD (y * 64 + x) false) := List.getD_map (l := s.fb.flatten) false flagByte
      _ = flagByte (s.pixel x y) := congrArg flagByte (getD_flatten_of_width hwidth hx)

end Sys2Proof.Proofs
end

section
/-! PROOFS. The statements about every instruction (10_state.md R21, R24, R26, R28 to R34, R37, R40, R41; 20_memory.md
R60): which pieces of state it writes, what a fault leaves (60_exceptions.md R232), and what a step does to the
run-state (10_state.md R33). -/
namespace Sys2Proof.Machine

variable {i : Instr} {s t : State} {z : Nibble}

/-! ## What an instruction may write -/

/-- The pieces of state an instruction may write when it does not fault. -/
def writes : Instr → List Piece
  | .cls => [.screen]
  | .ret | .call _ => [.pc, .stack]
  | .jp _ | .seImm _ _ | .sneImm _ _ | .seReg _ _ | .sneReg _ _ | .skp _ | .sknp _ => [.pc]
  | .ldImm _ _ | .addImm _ _ | .ldReg _ _ | .orReg _ _ | .andReg _ _ | .xorReg _ _ | .addReg _ _ | .subReg _ _
  | .shr _ _ | .subn _ _ | .shl _ _ | .ldVxDT _ | .loadRegs _ => [.regs]
  | .ldI _ | .ldIV0 _ | .addI _ | .ldF _ => [.index]
  | .rnd _ _ => [.regs, .random]
  | .drw _ _ _ => [.screen, .regs]
  | .ldVxK _ => [.run]
  | .ldDTVx _ => [.dt]
  | .ldSTVx _ => [.st]
  | .ldB _ | .storeRegs _ => [.mem]
  | .nop _ => []

/-- `t` is `s` stopped by a fault of the executing instruction (60_exceptions.md R232). -/
def faulted (s t : State) : Prop := ∃ cause info, t = s.setRun (.halted cause (s.pc - 2) info)

/-- The result is a next state, after a fault or with no piece changed but those named. -/
def writesOnly (pieces : List Piece) (s : State) (r : Result) : Prop :=
  ∃ t, r = .next t ∧ (faulted s t ∨ unchangedBut pieces s t)

theorem unchangedBut_refl (pieces : List Piece) (s : State) : unchangedBut pieces s s := by
  simp [unchangedBut]

theorem raise_writesOnly (pieces : List Piece) (s : State) (cause : FaultCause) (info : Nat) :
    writesOnly pieces s (raise cause info s) := ⟨_, raise_eq s cause info, .inl ⟨cause, info, rfl⟩⟩

/-- A checked access that answers `t` had its effect or faulted. -/
theorem checkedAccess_next {base last : Nat} {done : State} (h : checkedAccess base last s done = .next t) :
    t = done ∨ faulted s t := by
  rcases checkedAccess_cases s base last done with ⟨-, hin⟩ | ⟨-, hout⟩
  · cases h.symm.trans hin
    exact .inl rfl
  · cases h.symm.trans hout
    exact .inr ⟨_, _, rfl⟩

theorem exec_drw_next {x y n : Nibble} (h : exec (.drw x y n) s = .next t) :
    t = s.drawSprite x y n ∨ faulted s t := by
  by_cases hn : n = 0
  · cases h.symm.trans (exec_drw_draws (.inl hn))
    exact .inl rfl
  · exact checkedAccess_next ((exec_drw_checks hn).symm.trans h)

theorem checkedAccess_writesOnly {pieces : List Piece} (base last : Nat) (h : unchangedBut pieces s t) :
    writesOnly pieces s (checkedAccess base last s t) := by
  rcases checkedAccess_cases s base last t with ⟨-, hin⟩ | ⟨-, hout⟩
  · exact ⟨_, hin, .inr h⟩
  · exact ⟨_, hout, .inl ⟨_, _, rfl⟩⟩

theorem skipOnKey_writesOnly (s : State) (x : Nibble) (want : Bool) : writesOnly [.pc] s (skipOnKey x want s) := by
  by_cases h : 15 < (s.reg x).toNat
  · exact skipOnKey_fault s want h ▸ raise_writesOnly _ s _ _
  · exact ⟨_, skipOnKey_next s want h, .inr (s.unchangedBut_skipIf _)⟩

theorem exec_ret_writesOnly (s : State) : writesOnly [.pc, .stack] s (exec .ret s) := by
  cases h : s.stack with
  | nil => exact ⟨_, exec_ret_nil h, .inr (unchangedBut_refl _ s)⟩
  | cons a rest => exact ⟨_, exec_ret_cons h, .inr (s.unchangedBut_setStack_setPc rest a)⟩

theorem exec_call_writesOnly (s : State) (nnn : Addr) : writesOnly [.pc, .stack] s (exec (.call nnn) s) := by
  by_cases h : s.depth = s.cfg.stackDepth
  · exact ⟨_, exec_call_overflow h, .inl ⟨_, _, rfl⟩⟩
  · exact ⟨_, exec_call_push h, .inr (s.unchangedBut_setStack_setPc _ _)⟩

theorem exec_drw_writesOnly (s : State) (x y n : Nibble) : writesOnly [.screen, .regs] s (exec (.drw x y n) s) := by
  by_cases h : n = 0
  · exact ⟨_, exec_drw_draws (.inl h), .inr (s.unchangedBut_drawSprite x y n)⟩
  · exact exec_drw_checks h ▸ checkedAccess_writesOnly _ _ (s.unchangedBut_drawSprite x y n)

theorem exec_writesOnly (i : Instr) (s : State) : writesOnly (writes i) s (exec i s) := by
  cases i with
  | cls => exact ⟨_, rfl, .inr (s.unchangedBut_setFb _)⟩
  | ret => exact exec_ret_writesOnly s
  | call nnn => exact exec_call_writesOnly s nnn
  | jp => exact ⟨_, rfl, .inr (s.unchangedBut_setPc _)⟩
  | seImm | sneImm | seReg | sneReg => exact ⟨_, rfl, .inr (s.unchangedBut_skipIf _)⟩
  | skp x => exact skipOnKey_writesOnly s x true
  | sknp x => exact skipOnKey_writesOnly s x false
  | ldImm | addImm | ldReg | orReg | andReg | xorReg | ldVxDT => exact ⟨_, rfl, .inr (s.unchangedBut_setReg _ _)⟩
  | addReg | subReg | shr | subn | shl => exact ⟨_, rfl, .inr (s.unchangedBut_setResultFlag _ _ _)⟩
  | rnd => exact ⟨_, rfl, .inr (s.unchangedBut_setReg_setRndCount _ _ _)⟩
  | ldI | ldIV0 | addI | ldF => exact ⟨_, rfl, .inr (s.unchangedBut_setIndex _)⟩
  | drw x y n => exact exec_drw_writesOnly s x y n
  | ldVxK => exact ⟨_, rfl, .inr (s.unchangedBut_setRun _)⟩
  | ldDTVx => exact ⟨_, rfl, .inr (s.unchangedBut_setDt _)⟩
  | ldSTVx => exact ⟨_, rfl, .inr (s.unchangedBut_setSt _)⟩
  | ldB | storeRegs => exact checkedAccess_writesOnly _ _ (s.unchangedBut_storeBytes _ _)
  | loadRegs => exact checkedAccess_writesOnly _ _ (s.unchangedBut_loadBlock _ _)
  | nop => exact ⟨_, rfl, .inr (unchangedBut_refl _ s)⟩

/-- Everything an instruction can do to the state: fault, or write its own pieces. -/
theorem exec_frame (h : exec i s = .next t) : faulted s t ∨ unchangedBut (writes i) s t := by
  obtain ⟨t', ht', hframe⟩ := exec_writesOnly i s
  cases h.symm.trans ht'
  exact hframe

/-! ## The writers of each piece -/

theorem index_mem_writes (h : Piece.index ∈ writes i) :
    (∃ nnn, i = .ldI nnn) ∨ (∃ nnn, i = .ldIV0 nnn) ∨ (∃ x, i = .addI x) ∨ ∃ x, i = .ldF x := by
  cases i with
  | ldI nnn => exact .inl ⟨nnn, rfl⟩
  | ldIV0 nnn => exact .inr (.inl ⟨nnn, rfl⟩)
  | addI x => exact .inr (.inr (.inl ⟨x, rfl⟩))
  | ldF x => exact .inr (.inr (.inr ⟨x, rfl⟩))
  | _ => simp [writes] at h

theorem stack_mem_writes (h : Piece.stack ∈ writes i) : i = .ret ∨ ∃ nnn, i = .call nnn := by
  cases i with
  | ret => exact .inl rfl
  | call nnn => exact .inr ⟨nnn, rfl⟩
  | _ => simp [writes] at h

theorem dt_mem_writes (h : Piece.dt ∈ writes i) : ∃ x, i = .ldDTVx x := by
  cases i with
  | ldDTVx x => exact ⟨x, rfl⟩
  | _ => simp [writes] at h

theorem st_mem_writes (h : Piece.st ∈ writes i) : ∃ x, i = .ldSTVx x := by
  cases i with
  | ldSTVx x => exact ⟨x, rfl⟩
  | _ => simp [writes] at h

theorem screen_mem_writes (h : Piece.screen ∈ writes i) : i = .cls ∨ ∃ x y n, i = .drw x y n := by
  cases i with
  | cls => exact .inl rfl
  | drw x y n => exact .inr ⟨x, y, n, rfl⟩
  | _ => simp [writes] at h

theorem mem_mem_writes (h : Piece.mem ∈ writes i) : (∃ x, i = .ldB x) ∨ ∃ x, i = .storeRegs x := by
  cases i with
  | ldB x => exact .inl ⟨x, rfl⟩
  | storeRegs x => exact .inr ⟨x, rfl⟩
  | _ => simp [writes] at h

theorem run_mem_writes (h : Piece.run ∈ writes i) : ∃ x, i = .ldVxK x := by
  cases i with
  | ldVxK x => exact ⟨x, rfl⟩
  | _ => simp [writes] at h

theorem keys_notMem_writes (i : Instr) : Piece.keys ∉ writes i := by
  cases i <;> simp [writes]

/-! ## pc and the keys -/

theorem State.skipIf_pc_of_ne {b : Bool} (h : (.next (s.skipIf b) : Result) = .next t) (hne : t.pc ≠ s.pc) :
    t.pc = s.pc + 2 := by
  cases h
  cases b with
  | false => exact absurd rfl hne
  | true => rfl

theorem skipOnKey_pc_of_ne {x : Nibble} {want : Bool} (h : skipOnKey x want s = .next t) (hne : t.pc ≠ s.pc) :
    t.pc = s.pc + 2 := by
  by_cases hx : 15 < (s.reg x).toNat
  · cases h.symm.trans (skipOnKey_fault s want hx)
    exact absurd rfl hne
  · exact State.skipIf_pc_of_ne ((skipOnKey_next s want hx).symm.trans h) hne

theorem exec_pc (h : exec i s = .next t) (hne : t.pc ≠ s.pc) (hmem : Piece.pc ∈ writes i) :
    i = .ret ∨ (∃ nnn, i = .jp nnn) ∨ (∃ nnn, i = .call nnn) ∨
      ((t.pc = s.pc + 2) ∧ ((∃ x nn, i = .seImm x nn) ∨ (∃ x nn, i = .sneImm x nn) ∨ (∃ x y, i = .seReg x y) ∨
        (∃ x y, i = .sneReg x y) ∨ (∃ x, i = .skp x) ∨ ∃ x, i = .sknp x)) := by
  cases i with
  | ret => exact .inl rfl
  | jp nnn => exact .inr (.inl ⟨nnn, rfl⟩)
  | call nnn => exact .inr (.inr (.inl ⟨nnn, rfl⟩))
  | seImm | sneImm | seReg | sneReg => simp [State.skipIf_pc_of_ne h hne]
  | skp | sknp => simp [skipOnKey_pc_of_ne h hne]
  | _ => simp [writes] at hmem

theorem State.key_ext (h : ∀ k, t.keyHeld k = s.keyHeld k) : t.key = s.key := by
  apply Vector.ext
  intro k hk
  simpa [State.keyHeld, Nat.mod_eq_of_lt hk] using h (BitVec.ofNat 4 k)

/-! ## The run-state (10_state.md R33) -/

/-- An instruction faults, or is `Fx0A` and waits, or leaves the run-state. -/
theorem exec_run (h : exec i s = .next t) :
    faulted s t ∨ (∃ x, i = .ldVxK x ∧ t.run = .waitingForKeyPress x) ∨ t.run = s.run := by
  obtain hfault | ⟨-, -, -, -, -, -, -, -, -, hrun, -⟩ := exec_frame h
  · exact .inl hfault
  by_cases hmem : Piece.run ∈ writes i
  · obtain ⟨x, rfl⟩ := run_mem_writes hmem
    cases h
    exact .inr (.inl ⟨x, rfl, rfl⟩)
  · exact .inr (.inr (hrun hmem))

theorem faulted.isHalted (h : faulted s t) : t.isHalted := by
  obtain ⟨cause, info, rfl⟩ := h
  exact ⟨cause, s.pc - 2, info, rfl⟩

/-- A cycle leaves the run-state, but from `Running` it may halt or begin a fetched `Fx0A`'s wait. -/
theorem cycle_run (h : cycle s = .next t) : t.run = s.run ∨ (s.run = .running ∧
    (t.isHalted ∨ ∃ x, decode s.fetchWord = .ldVxK x ∧ t.run = .waitingForKeyPress x)) := by
  by_cases hrun : s.run = .running
  case neg =>
    cases h.symm.trans (cycle_idle s hrun)
    exact .inl rfl
  rcases Nat.lt_or_ge (s.pc.toNat + 1) memSize with hpc | hpc
  · obtain hfault | hwait | hstay := exec_run ((cycle_exec hrun hpc).symm.trans h)
    · exact .inr ⟨hrun, .inl hfault.isHalted⟩
    · exact .inr ⟨hrun, .inr hwait⟩
    · exact .inl hstay
  · cases h.symm.trans (cycle_fetch_fault hrun hpc)
    exact .inr ⟨hrun, .inl ⟨_, _, _, rfl⟩⟩

theorem cycle_paused (h : cycle s = .next t) (ht : t.run = .paused) : s.run = .paused := by
  obtain hstay | ⟨-, ⟨cause, fpc, info, hhalt⟩ | ⟨x, -, hwait⟩⟩ := cycle_run h
  · exact hstay ▸ ht
  · simp [hhalt] at ht
  · simp [hwait] at ht

theorem runCycles_paused (n : Nat) (h : runCycles n s = .next t) (ht : t.run = .paused) : s.run = .paused := by
  induction n generalizing s with
  | zero =>
    cases h
    exact ht
  | succ n ih =>
    obtain ⟨u, hu⟩ := cycle_next s
    exact cycle_paused hu (ih ((runCycles_succ n hu).symm.trans h))

theorem State.pressKey_paused {k : Nibble} {pressed : Bool} (ht : (s.pressKey k pressed).run = .paused) :
    s.run = .paused := by
  by_cases h : pressed = false ∨ ∀ r, s.run ≠ .waitingForKeyPress r
  · rwa [State.pressKey_not_waiting h] at ht
  · obtain ⟨hpress, hwait⟩ : pressed = true ∧ ∃ r, s.run = .waitingForKeyPress r := by simpa using h
    obtain ⟨r, hr⟩ := hwait
    rw [hpress, State.pressKey_waiting hr] at ht
    cases ht

/-- No operation enters `Paused` (10_state.md R33). -/
theorem perform_paused {op : HostOp} (h : perform op s = .next t) (ht : t.run = .paused) : s.run = .paused := by
  cases op with
  | reset =>
    cases h
    cases ht
  | load bytes =>
    obtain ⟨-, -, -, hrun, -⟩ := s.loadProgram_fields bytes
    cases h
    cases hrun.symm.trans ht
  | cycle => exact cycle_paused h ht
  | run n => exact runCycles_paused n h ht
  | tick =>
    cases h
    exact ht
  | key k pressed =>
    cases h
    exact State.pressKey_paused ht

theorem step_paused (h : step s = .next t) (ht : t.run = .paused) : s.run = .paused := by
  cases hp : s.pending with
  | nil => exact cycle_paused ((step_nil hp).symm.trans h) ht
  | cons op rest => exact perform_paused (s := s.setPending rest) ((step_cons hp).symm.trans h) ht

/-- Outside `Running` only a pending RESET, LOAD or press changes the run-state. -/
theorem step_changes_run_of_idle (hidle : s.run ≠ .running) (h : step s = .next t) (hne : t.run ≠ s.run) :
    ∃ op rest, s.pending = op :: rest ∧ perform op (s.setPending rest) = .next t ∧
      (op = .reset ∨ (∃ bytes, op = .load bytes) ∨ ∃ k, op = .key k true) := by
  cases hp : s.pending with
  | nil =>
    cases ((step_nil hp).symm.trans h).symm.trans (cycle_idle s hidle)
    exact absurd rfl hne
  | cons op rest =>
    have hop := (step_cons hp).symm.trans h
    exact ⟨op, rest, rfl, hop, perform_changes_run_of_idle (s := s.setPending rest) hidle hop hne⟩

/-! ## Registers -/

/-- A register an instruction names neither as its destination nor as its flag, and does not load, keeps its value. -/
theorem exec_reg_of_not_written (h : exec i s = .next t) (hdest : destination i ≠ some z)
    (hflag : writesFlag i = true → z ≠ 0xF#4) (hload : ∀ x : Nibble, i = .loadRegs x → x.toNat < z.toNat) :
    t.reg z = s.reg z := by
  have hne : ∀ {x : Nibble}, destination i = some x → z ≠ x := fun hx hz => hdest (hz ▸ hx)
  obtain ⟨cause, info, rfl⟩ | ⟨hregs, -⟩ := exec_frame h
  · rfl
  cases i with
  | ldImm | addImm | ldReg | orReg | andReg | xorReg | ldVxDT | rnd =>
    cases h
    exact s.setReg_reg_of_ne (hne rfl)
  | addReg | subReg | shr | subn | shl =>
    cases h
    exact s.setResultFlag_reg_of_ne (hne rfl) (hflag rfl)
  | drw x y n =>
    obtain rfl | ⟨_, _, rfl⟩ := exec_drw_next h
    · exact State.drawSprite_reg_of_ne (hflag rfl)
    · rfl
  | loadRegs x =>
    obtain rfl | ⟨_, _, rfl⟩ := checkedAccess_next h
    · exact State.loadBlock_reg_above (hload x rfl)
    · rfl
  | _ => exact hregs (by simp [writes]) z

theorem flagByte_zero_or_one (f : Bool) : flagByte f = 0 ∨ flagByte f = 1 :=
  (flagByte_cases f).imp And.right And.right

theorem exec_flag (h : exec i s = .next t) (hi : writesFlag i = true) (ht : t.run = .running) :
    t.reg 0xF#4 = 0 ∨ t.reg 0xF#4 = 1 := by
  cases i with
  | addReg | subReg | shr | subn | shl =>
    cases h
    exact s.setResultFlag_reg_flag _ _ _ ▸ flagByte_zero_or_one _
  | drw x y n =>
    obtain rfl | ⟨_, _, rfl⟩ := exec_drw_next h
    · exact s.drawSprite_flag x y n ▸ flagByte_zero_or_one _
    · cases ht
  | _ => cases hi

/-! ## Memory -/

/-- Stored bytes are the only ones a checked store changes. -/
theorem checkedAccess_storeBytes_range {last a : Nat} {bs : List Byte}
    (h : checkedAccess s.base last s (s.storeBytes s.base bs) = .next t) (hne : t.readByte a ≠ s.readByte a) :
    s.base ≤ a ∧ a < s.base + bs.length := by
  obtain rfl | ⟨_, _, rfl⟩ := checkedAccess_next h
  · by_contra hnot
    exact hne (State.storeBytes_readByte_other (by omega))
  · exact absurd rfl hne

/-! ## A fault of a cycle (60_exceptions.md R232, R233) -/

theorem State.unchangedBut_advance_setRun (s : State) (r : RunState) :
    unchangedBut [.run, .pc] s (s.advance.setRun r) := by
  simp [unchangedBut]

theorem State.unchangedBut_run_pc_setRun (s : State) (r : RunState) : unchangedBut [.run, .pc] s (s.setRun r) := by
  simp [unchangedBut]

/-- The advanced pc less 2 is the address the instruction was fetched from. -/
theorem State.advance_pc_sub_two (s : State) : s.advance.pc - 2 = s.pc := BitVec.add_sub_cancel s.pc 2

end Sys2Proof.Machine

namespace Sys2Proof.Proofs
open Sys2Proof.Machine

/-- Settles O7: a cycle begun in `Running` halts by a fault of the fetch or of the instruction, and either only sets the
run-state, the second after the advance of pc. -/
theorem faultsAreRecordedAndWriteNothing : Obligations.FaultsAreRecordedAndWriteNothing := by
  intro s t cause fpc info hrun hcycle hhalt
  rcases Nat.lt_or_ge (s.pc.toNat + 1) memSize with hpc | hpc
  · obtain ⟨_, _, rfl⟩ | ⟨x, -, hwait⟩ | hstay := exec_run ((cycle_exec hrun hpc).symm.trans hcycle)
    · cases hhalt
      exact ⟨s.advance_pc_sub_two, cycleResult_halted hrun rfl, s.unchangedBut_advance_setRun _,
        (if_neg hpc.not_ge).symm⟩
    · cases hwait.symm.trans hhalt
    · cases (hstay.trans hrun).symm.trans hhalt
  · cases hcycle.symm.trans (cycle_fetch_fault hrun hpc)
    cases hhalt
    exact ⟨rfl, cycleResult_halted hrun rfl, s.unchangedBut_run_pc_setRun _, (if_pos hpc).symm⟩

/-- Settles O47: what is not written keeps its value. -/
theorem registersChangeOnlyByTheirWriters : Obligations.RegistersChangeOnlyByTheirWriters := by
  intro i s t z h hne
  by_contra hnot
  simp only [not_or, not_and, not_exists, not_le] at hnot
  obtain ⟨hdest, hflag, hload⟩ := hnot
  exact hne (exec_reg_of_not_written h hdest hflag hload)

/-- Settles O48: the flag is the last write of each of the six, and a fault would have left `Running`. -/
theorem flagWritersLeaveZeroOrOne : Obligations.FlagWritersLeaveZeroOrOne :=
  fun _ _ _ hi _ h ht => exec_flag h hi ht

/-- Settles O49: memory is written by the two stores alone, each in the range it checks. -/
theorem instructionsChangeMemoryOnlyByStores : Obligations.InstructionsChangeMemoryOnlyByStores := by
  intro i s t a h hne
  obtain ⟨cause, info, rfl⟩ | ⟨-, -, -, -, -, -, hmem, -⟩ := exec_frame h
  · exact absurd rfl hne
  have hwrites : Piece.mem ∈ writes i := by
    by_contra hnot
    exact hne (hmem hnot a)
  rcases mem_mem_writes hwrites with ⟨x, rfl⟩ | ⟨x, rfl⟩
  · obtain ⟨hlo, hhi⟩ := checkedAccess_storeBytes_range h hne
    exact .inl ⟨x, rfl, hlo, hhi⟩
  · obtain ⟨hlo, hhi⟩ := checkedAccess_storeBytes_range h hne
    rw [State.regsUpTo_length] at hhi
    exact .inr ⟨x, rfl, hlo, Nat.le_of_lt_succ hhi⟩

/-- Settles O50: a fault changes the run-state alone, and each piece that changes is one the instruction writes. -/
theorem controlStateChangesOnlyByItsWriters : Obligations.ControlStateChangesOnlyByItsWriters := by
  intro i s t h
  obtain ⟨_, _, rfl⟩ | ⟨-, hindex, hpc, hstack, hdt, hst, -, hscreen, hkeys, -, -, hcfg, hpending⟩ := exec_frame h
  · exact ⟨(absurd rfl ·), (absurd rfl ·), (absurd rfl ·), (absurd rfl ·), (absurd rfl ·), (absurd rfl ·),
      fun _ => .inl ⟨_, _, _, rfl⟩, rfl, rfl, rfl⟩
  · refine ⟨fun hne => index_mem_writes (not_imp_comm.1 hindex hne),
      fun hne => exec_pc h hne (not_imp_comm.1 hpc hne), fun hne => stack_mem_writes (not_imp_comm.1 hstack hne),
      fun hne => dt_mem_writes (not_imp_comm.1 hdt hne), fun hne => st_mem_writes (not_imp_comm.1 hst hne),
      fun hne => screen_mem_writes (not_imp_comm.1 hscreen hne), fun hne => ?_,
      State.key_ext (hkeys (keys_notMem_writes i)), hcfg, hpending⟩
    obtain hfault | hwait | hstay := exec_run h
    · exact .inl hfault.isHalted
    · exact .inr hwait
    · exact absurd hstay hne

/-- Settles O51: outside `Running` a cycle is idle, so the run-state changes by a pending RESET, LOAD or press, and a
press does nothing to a halted program; nothing writes `Paused`; a cycle halts or begins a wait. -/
theorem runStateTransitions : Obligations.RunStateTransitions := by
  intro s t h
  refine ⟨fun ⟨cause, fpc, info, hhalt⟩ hne => ?_, fun x hwait hne => ?_, step_paused h, fun hp hne => ?_⟩
  · obtain ⟨op, rest, hp, hop, rfl | ⟨bytes, rfl⟩ | ⟨k, rfl⟩⟩ := step_changes_run_of_idle (by simp [hhalt]) h hne
    · exact ⟨rest, .inr hp⟩
    · exact ⟨rest, .inl ⟨bytes, hp⟩⟩
    · have hstay : (s.setPending rest).pressKey k true = _ := State.pressKey_not_waiting (.inr (by simp [hhalt]))
      cases hop.symm.trans (congrArg Host.Outcome.next hstay)
      exact absurd rfl hne
  · obtain ⟨op, rest, hp, -, rfl | ⟨bytes, rfl⟩ | ⟨k, rfl⟩⟩ := step_changes_run_of_idle (by simp [hwait]) h hne
    · exact ⟨rest, .inr (.inl hp)⟩
    · exact ⟨rest, .inl ⟨bytes, hp⟩⟩
    · exact ⟨rest, .inr (.inr ⟨k, hp⟩)⟩
  · exact (cycle_run ((step_nil hp).symm.trans h)).resolve_left hne

end Sys2Proof.Proofs
end

section
/-! PROOFS. The statement about the canonical form of memory (10_state.md R37, R38). -/
namespace Sys2Proof.Machine

variable {c : Config} {m m' : Memory} {lo a b : Nat} {x : Byte}

/-- Below its lowest address a canonical memory reads as RESET left it. -/
theorem Memory.read_of_lt (h : Memory.wfFrom c lo m = true) (ha : a < lo) : Memory.read c m a = initialByte c a := by
  induction m generalizing lo with
  | nil => rfl
  | cons e rest ih =>
    obtain ⟨b, y⟩ := e
    obtain ⟨hb, -, -, hrest⟩ := Memory.wfFrom_cons.1 h
    have hne : a ≠ b := by omega
    rw [Memory.read, Memory.lookup, if_neg hne]
    exact ih hrest (by omega)

theorem Memory.read_cons_self : Memory.read c ((a, x) :: m) a = x := by
  rw [Memory.read, Memory.lookup, if_pos rfl, Option.getD_some]

theorem Memory.read_cons_of_ne (h : b ≠ a) : Memory.read c ((a, x) :: m) b = Memory.read c m b := by
  rw [Memory.read, Memory.lookup, if_neg h, Memory.read]

/-- An entry differs from what RESET left, so a canonical memory that reads the same does not start above it. -/
theorem Memory.start_le_of_read_eq (hx : x ≠ initialByte c a) (h' : Memory.wfFrom c lo m' = true)
    (hread : Memory.read c ((a, x) :: m) a = Memory.read c m' a) : lo ≤ a := by
  by_contra hlt
  rw [Memory.read_cons_self, Memory.read_of_lt h' (not_le.1 hlt)] at hread
  exact hx hread

/-- The empty memory starts above every address. -/
theorem Memory.read_cons_ne_nil (hx : x ≠ initialByte c a) : Memory.read c ((a, x) :: m) a ≠ Memory.read c [] a :=
  fun hread => Nat.not_succ_le_self a (Memory.start_le_of_read_eq (lo := a + 1) hx rfl hread)

/-- Canonical memories that read the same have the same first entry, and tails that read the same. -/
theorem Memory.wfFrom_ext (h : Memory.wfFrom c lo m = true) (h' : Memory.wfFrom c lo m' = true)
    (hread : ∀ b, Memory.read c m b = Memory.read c m' b) : m = m' := by
  induction m generalizing lo m' with
  | nil =>
    cases m' with
    | nil => rfl
    | cons e' rest' =>
      obtain ⟨a', x'⟩ := e'
      obtain ⟨-, -, hx', -⟩ := Memory.wfFrom_cons.1 h'
      exact absurd (hread a').symm (Memory.read_cons_ne_nil hx')
  | cons e rest ih =>
    obtain ⟨a, x⟩ := e
    obtain ⟨-, ha, hx, hrest⟩ := Memory.wfFrom_cons.1 h
    cases m' with
    | nil => exact absurd (hread a) (Memory.read_cons_ne_nil hx)
    | cons e' rest' =>
      obtain ⟨a', x'⟩ := e'
      obtain ⟨-, ha', hx', hrest'⟩ := Memory.wfFrom_cons.1 h'
      have hle : a' ≤ a :=
        Memory.start_le_of_read_eq hx (Memory.wfFrom_cons.2 ⟨le_rfl, ha', hx', hrest'⟩) (hread a)
      have hge : a ≤ a' :=
        Memory.start_le_of_read_eq hx' (Memory.wfFrom_cons.2 ⟨le_rfl, ha, hx, hrest⟩) (hread a').symm
      obtain rfl := Nat.le_antisymm hle hge
      obtain rfl : x = x' := by simpa only [Memory.read_cons_self] using hread a'
      refine congrArg _ (ih hrest hrest' fun b => ?_)
      by_cases hb : b = a'
      · rw [hb, Memory.read_of_lt hrest a'.lt_succ_self, Memory.read_of_lt hrest' a'.lt_succ_self]
      · simpa only [Memory.read_cons_of_ne hb] using hread b

end Sys2Proof.Machine

namespace Sys2Proof.Proofs
open Sys2Proof.Machine

/-- Settles O54, by induction on the first memory; its first entry is the second's, since no entry of either is what an
unlisted address reads as. -/
theorem canonicalMemoryIsUnique : Obligations.CanonicalMemoryIsUnique :=
  fun _ _ _ => Memory.wfFrom_ext

end Sys2Proof.Proofs
end
